-- ==== Sys2Proof/Word.lean ====
section
/-! DEFINITION. The word widths of the block AD567X-DRPE (spec/00_scope.md R6, R8, R10): every value is an unsigned
bit field, bit 0 the least significant. -/

namespace Sys2Proof

/-- A 4-bit field: a request's `op`, a frame's command field and its address field (R6, R48, R51). -/
abbrev Nibble := BitVec 4

/-- One byte of a bus transaction (R34). -/
abbrev Byte := BitVec 8

/-- A channel operand: CH_W = 8 bits, unsigned (R8, D3). -/
abbrev Channel := BitVec 8

/-- A 16-bit word: a shadow word, a raw code, a mask, a frame's data field (R6, R8). -/
abbrev Word := BitVec 16

/-- A latch-pulse delay in microseconds: DELAY_W = 32 bits, unsigned (R8, D3). -/
abbrev Delay := BitVec 32

/-- The 24-bit frame of one bus transaction (R6, R51). -/
abbrev Frame := BitVec 24

end Sys2Proof
end

