-- ==== Sys2Proof/Syntax.lean ====
section
/-! DEFINITION. The instructions: one constructor for each mnemonic of spec/opcode_table.json, and what the outside world
can present to the block. -/

namespace Sys2Proof

/-- One entry of a PWRB list: a channel and whether to power it up (spec/30_encoding.md R49, D8). -/
structure PowerEntry where
  ch : Channel
  up : Bool
deriving DecidableEq, Repr

/-- The instructions of spec/opcode_table.json: the seven request operations with the operands of their formats
(R48, R49), the illegal request operations (R56), and the sixteen frames by command code (R51, R52). A frame row stands for
that frame on its own, handed to the transport with no request around it (log entry 6). -/
inductive Instr where
  /-- op 0x1: raw write of one frame (R73). -/
  | wraw (cmd addr : Nibble) (data : Word)
  /-- op 0x2: write a raw code to one channel (R81). -/
  | setch (ch : Channel) (code : Word) (imm verbose : Bool)
  /-- op 0x3: batch update by mask (R84). -/
  | updch (list : List Channel)
  /-- op 0x4: power one channel up or down (R98). -/
  | pwr (ch : Channel) (up : Bool)
  /-- op 0x5: power a list of channels up or down (R95). -/
  | pwrb (list : List PowerEntry)
  /-- op 0x6: select the internal (`ext` = 0) or external (`ext` = 1) reference (R103). -/
  | setref (ext : Bool)
  /-- op 0x7: pulse the latch line low (R87). -/
  | ldac (delay : Delay)
  /-- op 0x0 and 0x8 to 0xF: an illegal request op; its operand fields are not examined (R56, R110). -/
  | illegalOp (op : Nibble)
  /-- command 0b0000, not named (R58). -/
  | frmUnnamed0 (addr : Nibble) (data : Word)
  /-- command 0b0001, write-input-register (R52). -/
  | frmWriteInput (addr : Nibble) (data : Word)
  /-- command 0b0010, update-DAC-register from input (R52). -/
  | frmUpdateDac (addr : Nibble) (data : Word)
  /-- command 0b0011, write-DAC-register directly (R52). -/
  | frmWriteDac (addr : Nibble) (data : Word)
  /-- command 0b0100, power-up/down (R52). -/
  | frmPower (addr : Nibble) (data : Word)
  /-- command 0b0101, LDAC-mask, unimplemented (R58). -/
  | frmLdacMask (addr : Nibble) (data : Word)
  /-- command 0b0110, software-reset, unimplemented (R58). -/
  | frmSwReset (addr : Nibble) (data : Word)
  /-- command 0b0111, reference-setup (R52). -/
  | frmRefSetup (addr : Nibble) (data : Word)
  /-- command 0b1000, daisy-chain, unimplemented (R58). -/
  | frmDaisyChain (addr : Nibble) (data : Word)
  /-- command 0b1001, readback, unimplemented (R58). -/
  | frmReadback (addr : Nibble) (data : Word)
  /-- command 0b1010, write-all-input, unimplemented (R58). -/
  | frmWriteAllInput (addr : Nibble) (data : Word)
  /-- command 0b1011, write-all-DAC, unimplemented (R58). -/
  | frmWriteAllDac (addr : Nibble) (data : Word)
  /-- command 0b1100, not named (R58). -/
  | frmUnnamedC (addr : Nibble) (data : Word)
  /-- command 0b1101, not named (R58). -/
  | frmUnnamedD (addr : Nibble) (data : Word)
  /-- command 0b1110, not named (R58). -/
  | frmUnnamedE (addr : Nibble) (data : Word)
  /-- command 0b1111, not named (R58). -/
  | frmUnnamedF (addr : Nibble) (data : Word)
deriving DecidableEq, Repr

/-- What the outside world can present to the block, one at a time and in its own order (R22, R120). -/
inductive Presented where
  /-- A request, as the bits of its record: the four bits of `op`, then the operand fields of its format (R48, R49). The
  order of the bits is the model's (DESIGN CHOICE, log entry 5). -/
  | request (bits : List Bool)
  /-- A frame by itself, with no request around it: how a frame24 row of the opcode table is run (DESIGN CHOICE, log
  entry 6). -/
  | frame (f : Frame)
  /-- The block's reset input asserted (R60, R129); it is not a request. -/
  | reset
  /-- From here on the transport completes no event (R124, R141). -/
  | stall
deriving DecidableEq, Repr

end Sys2Proof
end

