-- ==== Sys2Proof/WellFormed.lean ====
section
/-! DEFINITION. Well-formed instructions (spec/30_encoding.md R62), and those the port accepts. The operand widths are the
constructors' own types and a Lean list is finite, so the op alone is left to check. An out-of-range channel is a legal
spelling that aborts at execution (R62). R62 on the bits of a request is `wellFormedRequest` in Decode.lean. -/

namespace Sys2Proof

/-- The op values R48 assigns to an operation: 0x1 to 0x7. -/
def legalOp (op : Nibble) : Bool :=
  decide (1 ≤ op.toNat) && decide (op.toNat ≤ 7)

/-- R62: the op is one of 0x1 to 0x7; nothing else is ill-formed. -/
def Instr.wellFormed : Instr → Bool
  | .illegalOp _ => false
  | .wraw _ _ _ => true
  | .setch _ _ _ _ => true
  | .updch _ => true
  | .pwr _ _ => true
  | .pwrb _ => true
  | .setref _ => true
  | .ldac _ => true
  | .frmUnnamed0 _ _ => true
  | .frmWriteInput _ _ => true
  | .frmUpdateDac _ _ => true
  | .frmWriteDac _ _ => true
  | .frmPower _ _ => true
  | .frmLdacMask _ _ => true
  | .frmSwReset _ _ => true
  | .frmRefSetup _ _ => true
  | .frmDaisyChain _ _ => true
  | .frmReadback _ _ => true
  | .frmWriteAllInput _ _ => true
  | .frmWriteAllDac _ _ => true
  | .frmUnnamedC _ _ => true
  | .frmUnnamedD _ _ => true
  | .frmUnnamedE _ _ => true
  | .frmUnnamedF _ _ => true

/-- What the port accepts (R62, R56): the well-formed instructions (the frame rows among them by log entry 6), and an illegal
request, whose op is one that R48 does not assign. `illegalOp` with an op that R48 assigns stands for no request. -/
def Instr.accepted : Instr → Bool
  | .illegalOp op => !legalOp op
  | .wraw _ _ _ => true
  | .setch _ _ _ _ => true
  | .updch _ => true
  | .pwr _ _ => true
  | .pwrb _ => true
  | .setref _ => true
  | .ldac _ => true
  | .frmUnnamed0 _ _ => true
  | .frmWriteInput _ _ => true
  | .frmUpdateDac _ _ => true
  | .frmWriteDac _ _ => true
  | .frmPower _ _ => true
  | .frmLdacMask _ _ => true
  | .frmSwReset _ _ => true
  | .frmRefSetup _ _ => true
  | .frmDaisyChain _ _ => true
  | .frmReadback _ _ => true
  | .frmWriteAllInput _ _ => true
  | .frmWriteAllDac _ _ => true
  | .frmUnnamedC _ _ => true
  | .frmUnnamedD _ _ => true
  | .frmUnnamedE _ _ => true
  | .frmUnnamedF _ _ => true

end Sys2Proof
end

