-- ==== Sys2Proof/Decode.lean ====
section
/-! DEFINITION. The two encodings of spec/30_encoding.md. The frame encoding is the spec's (R51, R52, R59). The request
encoding is a record of named fields (R48, R49) for which the spec gives no packed word (N15): the order of a record's bits
is the model's (DESIGN CHOICE, log entry 5): `op` first, then the fields in the order R49 lists them, each field at exactly
its width with its least significant bit first; each entry of a list behind a 1 and the end of the list marked by a 0
(R50: `op` first, then the entries one after another, then an end marker). -/

namespace Sys2Proof

/-! ### Fields and lists as bits -/

/-- The bits of a field, least significant first. -/
def fieldBits : (n : Nat) → BitVec n → List Bool
  | 0, _ => []
  | n + 1, v => v.getLsbD 0 :: fieldBits n (v.extractLsb' 1 n)

/-- A field of `n` bits from the front, and the bits behind it; none where the bits run out. -/
def takeField : (n : Nat) → List Bool → Option (BitVec n × List Bool)
  | 0, bs => some (0#0, bs)
  | _ + 1, [] => none
  | n + 1, b :: bs =>
    match takeField n bs with
    | some (v, rest) => some (v.concat b, rest)
    | none => none

/-- A one-bit field from the front (R55: 1 = true, 0 = false). -/
def takeFlag : List Bool → Option (Bool × List Bool)
  | [] => none
  | b :: bs => some (b, bs)

/-- A list of entries: each behind a 1, the end marker a 0 (R50). -/
def listBits {α : Type} (entryBits : α → List Bool) : List α → List Bool
  | [] => [false]
  | x :: xs => true :: (entryBits x ++ listBits entryBits xs)

/-- Reads entries until the end marker; `fuel` bounds their number and is never short where it is the number of bits. -/
def takeList {α : Type} (takeEntry : List Bool → Option (α × List Bool)) : Nat → List Bool → Option (List α × List Bool)
  | _ + 1, false :: bs => some ([], bs)
  | fuel + 1, true :: bs =>
    match takeEntry bs with
    | none => none
    | some (x, rest) =>
      match takeList takeEntry fuel rest with
      | none => none
      | some (xs, rest') => some (x :: xs, rest')
  | _ + 1, [] => none
  | 0, _ => none

/-- A PWRB entry's bits: `ch`, then `up` (R49). -/
def entryBits (e : PowerEntry) : List Bool :=
  fieldBits 8 e.ch ++ [e.up]

/-- A PWRB entry from the front (R49). -/
def takeEntry (bs : List Bool) : Option (PowerEntry × List Bool) := do
  let (ch, bs) ← takeField 8 bs
  let (up, bs) ← takeFlag bs
  some ({ ch := ch, up := up }, bs)

/-! ### Frames -/

/-- The packer (R63, R13): `cmd ++ addr ++ data`, total, checking nothing (R64). -/
def pack (cmd addr : Nibble) (data : Word) : Frame :=
  (cmd ++ addr) ++ data

/-- A frame's command field C, bits 23:20 (R51, R59). -/
def frameCommand (f : Frame) : Nibble := f.extractLsb' 20 4

/-- A frame's address field A, bits 19:16 (R51, R59). -/
def frameAddress (f : Frame) : Nibble := f.extractLsb' 16 4

/-- A frame's data field D, bits 15:0 (R51, R59). -/
def frameData (f : Frame) : Word := f.extractLsb' 0 16

/-- The frame instruction of a command code (R52). -/
def frameInstr (c addr : Nibble) (data : Word) : Instr :=
  match c.toNat with
  | 0 => .frmUnnamed0 addr data
  | 1 => .frmWriteInput addr data
  | 2 => .frmUpdateDac addr data
  | 3 => .frmWriteDac addr data
  | 4 => .frmPower addr data
  | 5 => .frmLdacMask addr data
  | 6 => .frmSwReset addr data
  | 7 => .frmRefSetup addr data
  | 8 => .frmDaisyChain addr data
  | 9 => .frmReadback addr data
  | 10 => .frmWriteAllInput addr data
  | 11 => .frmWriteAllDac addr data
  | 12 => .frmUnnamedC addr data
  | 13 => .frmUnnamedD addr data
  | 14 => .frmUnnamedE addr data
  | _ => .frmUnnamedF addr data

/-- Reads a frame back (R59): total, every 24-bit value is a (C, A, D) triple. -/
def decodeFrame (f : Frame) : Instr :=
  frameInstr (frameCommand f) (frameAddress f) (frameData f)

/-- The (C, A, D) triple of a frame instruction (R52); none for a request. -/
def frameFields : Instr → Option (Nibble × Nibble × Word)
  | .frmUnnamed0 a d => some (0x0#4, a, d)
  | .frmWriteInput a d => some (0x1#4, a, d)
  | .frmUpdateDac a d => some (0x2#4, a, d)
  | .frmWriteDac a d => some (0x3#4, a, d)
  | .frmPower a d => some (0x4#4, a, d)
  | .frmLdacMask a d => some (0x5#4, a, d)
  | .frmSwReset a d => some (0x6#4, a, d)
  | .frmRefSetup a d => some (0x7#4, a, d)
  | .frmDaisyChain a d => some (0x8#4, a, d)
  | .frmReadback a d => some (0x9#4, a, d)
  | .frmWriteAllInput a d => some (0xA#4, a, d)
  | .frmWriteAllDac a d => some (0xB#4, a, d)
  | .frmUnnamedC a d => some (0xC#4, a, d)
  | .frmUnnamedD a d => some (0xD#4, a, d)
  | .frmUnnamedE a d => some (0xE#4, a, d)
  | .frmUnnamedF a d => some (0xF#4, a, d)
  | .wraw _ _ _ => none
  | .setch _ _ _ _ => none
  | .updch _ => none
  | .pwr _ _ => none
  | .pwrb _ => none
  | .setref _ => none
  | .ldac _ => none
  | .illegalOp _ => none

/-- What the document says of a command code (R52): implemented, listed as unimplemented, or absent from its table. -/
inductive CommandStatus where
  | implemented
  | unimplemented
  | unnamed
deriving DecidableEq, Repr

/-- The status column of R52, and R58. -/
def commandStatus (c : Nibble) : CommandStatus :=
  match c.toNat with
  | 1 | 2 | 3 | 4 | 7 => .implemented
  | 5 | 6 | 8 | 9 | 10 | 11 => .unimplemented
  | _ => .unnamed

/-- The document's name of a command code (R52); none for the codes it does not name. -/
def commandName (c : Nibble) : Option String :=
  match c.toNat with
  | 1 => some "write-input-register"
  | 2 => some "update-DAC-register"
  | 3 => some "write-DAC-register"
  | 4 => some "power-up/down"
  | 5 => some "LDAC-mask"
  | 6 => some "software-reset"
  | 7 => some "reference-setup"
  | 8 => some "daisy-chain"
  | 9 => some "readback"
  | 10 => some "write-all-input"
  | 11 => some "write-all-DAC"
  | _ => none

/-! ### Requests -/

/-- Why what stands at the port is no instruction. -/
inductive DecodeError where
  /-- The bits end before the fields of the request's format do: no record of R48 and R49. -/
  | shortRequest
  /-- A reset or a stall of the transport, which is no request (R60). -/
  | notARequest
deriving DecidableEq, Repr

/-- RQ-RAW: `cmd`, `addr`, `data` (R49). -/
def takeRaw (bs : List Bool) : Option Instr := do
  let (cmd, bs) ← takeField 4 bs
  let (addr, bs) ← takeField 4 bs
  let (data, _) ← takeField 16 bs
  some (.wraw cmd addr data)

/-- RQ-CH: `ch`, `code`, `imm`, `verbose` (R49). -/
def takeCh (bs : List Bool) : Option Instr := do
  let (ch, bs) ← takeField 8 bs
  let (code, bs) ← takeField 16 bs
  let (imm, bs) ← takeFlag bs
  let (verbose, _) ← takeFlag bs
  some (.setch ch code imm verbose)

/-- RQ-LIST: channels (R49, R50). -/
def takeChannels (bs : List Bool) : Option Instr := do
  let (list, _) ← takeList (takeField 8) bs.length bs
  some (.updch list)

/-- RQ-PWR: `ch`, `up` (R49). -/
def takePwr (bs : List Bool) : Option Instr := do
  let (e, _) ← takeEntry bs
  some (.pwr e.ch e.up)

/-- RQ-PLIST: entries (R49, R50). -/
def takeEntries (bs : List Bool) : Option Instr := do
  let (list, _) ← takeList takeEntry bs.length bs
  some (.pwrb list)

/-- RQ-REF: `ext` (R49). -/
def takeRef (bs : List Bool) : Option Instr := do
  let (ext, _) ← takeFlag bs
  some (.setref ext)

/-- RQ-DLY: `delay` (R49). -/
def takeDelay (bs : List Bool) : Option Instr := do
  let (delay, _) ← takeField 32 bs
  some (.ldac delay)

/-- The operands of an op (R48). An illegal op's are not examined (R110), so it decodes whatever follows it. Bits behind
the last field belong to no field of the record and are not read. -/
def takeOperands (op : Nibble) (bs : List Bool) : Option Instr :=
  match op.toNat with
  | 1 => takeRaw bs
  | 2 => takeCh bs
  | 3 => takeChannels bs
  | 4 => takePwr bs
  | 5 => takeEntries bs
  | 6 => takeRef bs
  | 7 => takeDelay bs
  | _ => some (.illegalOp op)

/-- Decodes a request's bits. -/
def decodeRequest (bs : List Bool) : Except DecodeError Instr :=
  match takeField 4 bs with
  | none => .error .shortRequest
  | some (op, rest) =>
    match takeOperands op rest with
    | none => .error .shortRequest
    | some i => .ok i

/-- Decodes what stands at the port: total, rejecting by name. -/
def decode : Presented → Except DecodeError Instr
  | .request bs => decodeRequest bs
  | .frame f => .ok (decodeFrame f)
  | .reset => .error .notARequest
  | .stall => .error .notARequest

/-! ### The encoder -/

/-- What a host presents for an instruction: op values and formats from R48 and R49, frames from R51 and R52. -/
def encode : Instr → Presented
  | .wraw cmd addr data => .request (fieldBits 4 0x1#4 ++ (fieldBits 4 cmd ++ (fieldBits 4 addr ++ fieldBits 16 data)))
  | .setch ch code imm verbose =>
    .request (fieldBits 4 0x2#4 ++ (fieldBits 8 ch ++ (fieldBits 16 code ++ [imm, verbose])))
  | .updch list => .request (fieldBits 4 0x3#4 ++ listBits (fieldBits 8) list)
  | .pwr ch up => .request (fieldBits 4 0x4#4 ++ entryBits { ch := ch, up := up })
  | .pwrb list => .request (fieldBits 4 0x5#4 ++ listBits entryBits list)
  | .setref ext => .request (fieldBits 4 0x6#4 ++ [ext])
  | .ldac delay => .request (fieldBits 4 0x7#4 ++ fieldBits 32 delay)
  | .illegalOp op => .request (fieldBits 4 op)
  | .frmUnnamed0 a d => .frame (pack 0x0#4 a d)
  | .frmWriteInput a d => .frame (pack 0x1#4 a d)
  | .frmUpdateDac a d => .frame (pack 0x2#4 a d)
  | .frmWriteDac a d => .frame (pack 0x3#4 a d)
  | .frmPower a d => .frame (pack 0x4#4 a d)
  | .frmLdacMask a d => .frame (pack 0x5#4 a d)
  | .frmSwReset a d => .frame (pack 0x6#4 a d)
  | .frmRefSetup a d => .frame (pack 0x7#4 a d)
  | .frmDaisyChain a d => .frame (pack 0x8#4 a d)
  | .frmReadback a d => .frame (pack 0x9#4 a d)
  | .frmWriteAllInput a d => .frame (pack 0xA#4 a d)
  | .frmWriteAllDac a d => .frame (pack 0xB#4 a d)
  | .frmUnnamedC a d => .frame (pack 0xC#4 a d)
  | .frmUnnamedD a d => .frame (pack 0xD#4 a d)
  | .frmUnnamedE a d => .frame (pack 0xE#4 a d)
  | .frmUnnamedF a d => .frame (pack 0xF#4 a d)

/-- R62 on a request's bits: its op is one of 0x1 to 0x7, every operand has exactly its format's width and a list has its end
marker, with nothing behind. Bits behind the record make it ill-formed and are not read (log entry 5). -/
def wellFormedRequest (bits : List Bool) : Bool :=
  match decodeRequest bits with
  | .ok i => i.wellFormed && decide (encode i = .request bits)
  | .error _ => false

/-! ### Words as the opcode table numbers them -/

/-- The `n` low bits of `w`, bit 0 first. -/
def wordBits : (n : Nat) → (w : Nat) → List Bool
  | 0, _ => []
  | n + 1, w => w.testBit 0 :: wordBits n (w / 2)

/-- What is presented for `nbits` bits of the opcode table: a frame24 row has 24 bits (R51), a request row the bits of its
`op`; every bit a request has above those is 0, up to the longest format of fixed length, LDAC's 36 bits. -/
def presentWord (nbits w : Nat) : Presented :=
  if nbits = 24 then .frame (BitVec.ofNat 24 w)
  else .request (wordBits nbits w ++ List.replicate 36 false)

/-- The instruction the decoder reads from a table word. -/
def decodeTableWord (nbits w : Nat) : Option Instr :=
  match decode (presentWord nbits w) with
  | .ok i => some i
  | .error _ => none

end Sys2Proof
end

