-- ==== Sys2Proof/Config.lean ====
section
/-! DEFINITION. The build parameters of the block (spec/00_scope.md R6 to R9, spec/10_state.md R24): fixed for the life of
an instance of the block, written by no request. Log entries 1, 2, 3, 4 and 17. -/

namespace Sys2Proof

/-- RES, the resolution: 12 or 16 bits (R7). -/
inductive Resolution where
  | res12
  | res16
deriving DecidableEq, Repr

/-- PD_PATTERN, the 2-bit power-down pattern: one of 0b01, 0b10, 0b11, never 0b00 (R8, R90, D4). -/
inductive PowerDownPattern where
  | pattern01
  | pattern10
  | pattern11
deriving DecidableEq, Repr

/-- SPI_MODE, the clock phase and polarity the chip requires: an OPEN parameter of the transport (R8, R66, D31), which the
block hands to the transport and never reads (R123). -/
structure SpiMode where
  clockPhase : Bool
  clockPolarity : Bool
deriving DecidableEq, Repr

/-- The parameters that R7 and R8 leave to the build. -/
structure Config where
  /-- RES (R7). -/
  resolution : Resolution
  /-- PD_PATTERN (R90). -/
  powerDown : PowerDownPattern
  /-- RESET_PULSE_MS, the hold time of the reset pulse, a natural number of milliseconds (R8, R129, D15). -/
  resetPulseMs : Nat
  /-- SPI_MODE (R8, D31). -/
  spiMode : SpiMode
deriving DecidableEq, Repr

/-- The parameters of the machine `State.reset` describes: PD_PATTERN = 0b11 (D4) and RESET_PULSE_MS = 1 (D15) are the
spec's reference instance, RES = 12 is what spec/95_test_vectors.md uses unless a vector says otherwise. DESIGN CHOICE
(log entries 2 and 3): RES and SPI_MODE have no reference value in the rules; the meanings are defined for every
`Config`, so no statement but one about `State.reset` itself rests on these. -/
def Config.reference : Config :=
  { resolution := .res12
    powerDown := .pattern11
    resetPulseMs := 1
    spiMode := { clockPhase := false, clockPolarity := false } }

end Sys2Proof
end

