-- ==== Sys2Proof/Machine/State.lean ====
section
/-! DEFINITION. The state of the block (spec/10_state.md R19 to R33), the alphabet of its events and results (spec/00_scope.md
R12, spec/60_exceptions.md R109), and the ways a step can stop. -/

namespace Sys2Proof.Machine

/-- The three control lines: select, latch and reset (R12, R17). -/
inductive LineId where
  | sel
  | lat
  | rst
deriving DecidableEq, Repr

/-- A transport event (R12). `true` is a high level (R25). -/
inductive Event where
  /-- One 3-byte bus transaction. -/
  | frame (f : Frame)
  /-- Drive a control line. -/
  | line (id : LineId) (level : Bool)
  /-- Ask the transport to wait, in microseconds. -/
  | waitUs (n : Delay)
  /-- Ask the transport to wait, in milliseconds. -/
  | waitMs (n : Nat)
deriving DecidableEq, Repr

/-- One step at the line-and-byte level, into which an event expands (R18, R68). -/
inductive WireStep where
  | line (id : LineId) (level : Bool)
  | byte (b : Byte)
  | waitUs (n : Delay)
  | waitMs (n : Nat)
deriving DecidableEq, Repr

/-- The outcome of a request (R109). -/
inductive Result where
  /-- Completed. -/
  | ok
  /-- Completed, and the code was truncated. -/
  | okWarnTrunc
  /-- Aborted: a channel operand is 16 or more. -/
  | errRange
  /-- Reserved for the host's voltage front end; the block never raises it. -/
  | errRefUndef
  /-- Aborted: an illegal request op. -/
  | errOpcode
deriving DecidableEq, Repr

/-- A bank of eight channels: bank 0 holds channels 0 to 7, bank 1 channels 8 to 15 (R6). -/
inductive Bank where
  | bank0
  | bank1
deriving DecidableEq, Repr

/-- The register file SH[0..1] (R20), two bits for each channel (R21). -/
structure Shadow where
  /-- SH[0], channels 0 to 7. -/
  w0 : Word
  /-- SH[1], channels 8 to 15. -/
  w1 : Word
deriving DecidableEq, Repr

/-- The state: S of R19 (`sh`, `selQ`, `latQ`, `rstQ`); the build parameters, which no step writes (log entry 1); what
the block has given back so far (R128); and what the outside world presents (R120). The transient W, T, E and M of R27 and
R28 exist only inside a request and are values of its meaning (`Working`, `MaskAcc` in Machine/Ops.lean). -/
structure State where
  /-- The build parameters (R24, D32): configuration, not state of the block. -/
  cfg : Config
  /-- SH[0] and SH[1] (R20). -/
  sh : Shadow
  /-- SEL_Q, the level last driven on the select line (R25). -/
  selQ : Bool
  /-- LAT_Q, the level last driven on the latch line (R25). -/
  latQ : Bool
  /-- RST_Q, the level last driven on the reset line (R25). -/
  rstQ : Bool
  /-- The result codes given back so far, oldest first (R128). The model's own field (log entry 7). -/
  results : List Result
  /-- The event lists given out so far, concatenated, oldest first (R128). The model's own field (log entry 7). -/
  events : List Event
  /-- What the host has presented and the block has not yet taken, in the host's order (R22). The model's own field (log
  entry 8). -/
  port : List Presented
  /-- The transport completes no event any more (R124, R141). The model's own field (log entry 9). -/
  stalled : Bool
deriving DecidableEq, Repr

/-- Why the machine is stuck. -/
inductive Fault where
  /-- Raised by `step` where a request or a reset has an event and the transport completes none: the request never ends
  (R141), so there is no completing step (I9, D30). Safe: nothing is claimed of the state inside an unfinished request. -/
  | transportStalled
deriving DecidableEq, Repr

/-- Why a step is refused. -/
inductive Refusal where
  /-- Raised by `exec` for an instruction without a meaning. No arm of this model does. Safe. -/
  | notModelled (mnemonic : String)
  /-- Raised by `step` where the bits at the port end before the request's fields do: no request of R48 and R49 stands
  there, and the spec says nothing of it (log entry 5). Safe. -/
  | incompleteRequest
deriving DecidableEq, Repr

/-- The machine right after the reset sequence (R32, R130): both shadow words 0x0000, all three lines high, the six events
of R129 given out, no request presented. The build parameters are the reference instance's (log entries 2 and 3). -/
def State.reset : State :=
  { cfg := Config.reference
    sh := { w0 := 0x0000#16, w1 := 0x0000#16 }
    selQ := true
    latQ := true
    rstQ := true
    results := []
    events :=
      [.line .sel true, .line .lat true, .line .rst true, .line .rst false, .waitMs Config.reference.resetPulseMs,
        .line .rst true]
    port := []
    stalled := false }

end Sys2Proof.Machine
end

