-- ==== Sys2Proof/Machine/Operands.lean ====
section
/-! DEFINITION. The operands: channel validity, bank and position, shaping, payloads and addresses. -/

namespace Sys2Proof.Machine

/-- `valid(ch) = (ch < 16)` on the whole 8-bit operand, with no reduction modulo 16 (R55, R75, D27). -/
def validChannel (ch : Channel) : Bool :=
  decide (ch.toNat < 16)

/-- `bank(c) = c[3]` (R55, R89). -/
def bankOf (ch : Channel) : Bank :=
  if ch.getLsbD 3 then .bank1 else .bank0

/-- `pos(c) = 2 * c[2:0]`, the low bit of the channel's pair in its bank's word (R21, R89, D5). -/
def posOf (ch : Channel) : Nat :=
  2 * (ch.extractLsb' 0 3).toNat

/-- BANK_ADDR (R9, R53): 0b0000 for bank 0 and 0b1000 for bank 1. -/
def bankAddr : Bank → Nibble
  | .bank0 => 0b0000#4
  | .bank1 => 0b1000#4

/-- UPD_ADDR, the address of the update-mask frame (R9, C3). -/
def updAddr : Nibble := 0b0000#4

/-- REF_ADDR, the address of the reference-setup frame: the spec's choice (R101, D6; log entry 4). -/
def refAddr : Nibble := 0b0000#4

/-- `zext_16(ext)`: 0x0000 internal, 0x0001 external (R54, R100). -/
def refPayload (ext : Bool) : Word :=
  (BitVec.ofBool ext).setWidth 16

/-- The address nibble of a channel, `ch[3:0]` (R53). -/
def channelAddr (ch : Channel) : Nibble :=
  ch.extractLsb' 0 4

/-- SETCH's command: write-DAC-register where `imm` = 1, write-input-register where `imm` = 0 (R81). -/
def setchCommand (imm : Bool) : Nibble :=
  if imm then 0b0011#4 else 0b0001#4

/-- RES as a number (R7). -/
def resBits : Resolution → Nat
  | .res12 => 12
  | .res16 => 16

/-- SHIFT = 16 − RES (R7): 4 for RES = 12, 0 for RES = 16. -/
def shiftOf (r : Resolution) : Nat :=
  16 - resBits r

/-- `shape(code) = code << SHIFT`, truncated to 16 bits (R79). -/
def shape (r : Resolution) (code : Word) : Word :=
  code <<< shiftOf r

/-- PD_PATTERN's two bits (R90). -/
def powerDownBits : PowerDownPattern → BitVec 2
  | .pattern01 => 0b01#2
  | .pattern10 => 0b10#2
  | .pattern11 => 0b11#2

/-- The value an entry puts into its channel's pair (R94): 0b00 up, PD_PATTERN down. -/
def pairValue (cfg : Config) (up : Bool) : BitVec 2 :=
  if up then 0b00#2 else powerDownBits cfg.powerDown

/-- The mask bit of a channel, `0x0001 << c` (R83). -/
def maskBit (ch : Channel) : Word :=
  0x0001#16 <<< ch.toNat

end Sys2Proof.Machine
end

