-- ==== Sys2Proof/Machine/Flags.lean ====
section
/-! DEFINITION. The block has no flag register (spec/10_state.md R23): what a flag would say is a request's result code
(spec/60_exceptions.md R109). This file computes the codes. -/

namespace Sys2Proof.Machine

/-- The result code's 3-bit value (R109, D11). -/
def resultCode : Result → BitVec 3
  | .ok => 0#3
  | .okWarnTrunc => 1#3
  | .errRange => 2#3
  | .errRefUndef => 3#3
  | .errOpcode => 4#3

/-- A code that ends a request without effect (R109). -/
def isAbort : Result → Bool
  | .ok => false
  | .okWarnTrunc => false
  | .errRange => true
  | .errRefUndef => true
  | .errOpcode => true

/-- `trunc(code)`: RES = 12 and `code[15:12] != 0b0000` (R78). -/
def truncated (r : Resolution) (code : Word) : Bool :=
  decide (r = .res12) && decide (code.extractLsb' 12 4 ≠ 0b0000#4)

/-- The code of a SETCH that completes (R80): the warning where the code was truncated and `verbose` = 1 (C2, D10). -/
def setchResult (r : Resolution) (code : Word) (verbose : Bool) : Result :=
  if truncated r code && verbose then .okWarnTrunc else .ok

end Sys2Proof.Machine
end

