-- ==== Sys2Proof/Machine/Ops.lean ====
section
/-! DEFINITION. The operations the meanings share: the shadow words, the wire expansion, emitting an event, completing and
aborting a request, the mask and power algorithms, the reset sequence, and the transport's stall. -/

namespace Sys2Proof.Machine

/-! ### The shadow words -/

/-- SH[b] (R11, R20). -/
def readShadow (sh : Shadow) : Bank → Word
  | .bank0 => sh.w0
  | .bank1 => sh.w1

/-- SH[b] <- v (R11, R20). -/
def writeShadow (sh : Shadow) (b : Bank) (v : Word) : Shadow :=
  match b with
  | .bank0 => { sh with w0 := v }
  | .bank1 => { sh with w1 := v }

/-- `w[p+1:p]`. -/
def readPair (w : Word) (p : Nat) : BitVec 2 :=
  w.extractLsb' p 2

/-- `w[p+1:p] <- v`; no other bit changes (R94). -/
def writePair (w : Word) (p : Nat) (v : BitVec 2) : Word :=
  (w &&& ~~~(0b11#16 <<< p)) ||| (v.setWidth 16 <<< p)

/-- The power state the shadow holds for a channel (R21). -/
def channelPair (sh : Shadow) (ch : Channel) : BitVec 2 :=
  readPair (readShadow sh (bankOf ch)) (posOf ch)

/-! ### Events -/

/-- A frame's three bytes in bus order (R34). -/
def frameBytes (f : Frame) : List Byte :=
  [f.extractLsb' 16 8, f.extractLsb' 8 8, f.extractLsb' 0 8]

/-- A frame's bits as they appear on the wire, most significant first (R35). -/
def frameBits (f : Frame) : List Bool :=
  (fieldBits 24 f).reverse

/-- An event at the line-and-byte level (R68): a frame is its three bytes inside one low pulse of the select line. -/
def wireExpansion : Event → List WireStep
  | .frame f => .line .sel false :: ((frameBytes f).map .byte ++ [.line .sel true])
  | .line id level => [.line id level]
  | .waitUs n => [.waitUs n]
  | .waitMs n => [.waitMs n]

/-- The line-and-byte level of an event list (R18). -/
def wireOf (events : List Event) : List WireStep :=
  events.flatMap wireExpansion

/-- The level register of a line (R25). -/
def lineLevel (s : State) : LineId → Bool
  | .sel => s.selQ
  | .lat => s.latQ
  | .rst => s.rstQ

/-- A wire step's effect on the level registers: a LINE step sets its line's register (R25); a byte's returned byte is
discarded (R71) and a wait is only a request to the transport (R145). -/
def driveStep (s : State) : WireStep → State
  | .line .sel level => { s with selQ := level }
  | .line .lat level => { s with latQ := level }
  | .line .rst level => { s with rstQ := level }
  | .byte _ => s
  | .waitUs _ => s
  | .waitMs _ => s

/-- `emit(e)` (R12): the event goes to the end of the event list, and the level registers follow its wire steps in order
(R25). -/
def emit (s : State) (e : Event) : State :=
  let t := (wireExpansion e).foldl driveStep s
  { t with events := t.events ++ [e] }

/-- Emits a list of events, in order. -/
def emitAll (s : State) (es : List Event) : State :=
  es.foldl emit s

/-- `emit(FRAME(pack(cmd, addr, data)))` (R65): exactly one frame to the transport. -/
def emitFrame (cmd addr : Nibble) (data : Word) (s : State) : State :=
  emit s (.frame (pack cmd addr data))

/-! ### Ending a request -/

/-- A request gives back its result code (R109); the block is then idle again (R116). -/
def giveResult (r : Result) (s : State) : State :=
  { s with results := s.results ++ [r] }

/-- `return code`. -/
def complete (r : Result) (s : State) : Host.Outcome State Fault Refusal :=
  .next (giveResult r s)

/-- `abort(code)` (R12), the block's one form of an exception (R105, R115): no event and no state change, the only record is
the result code. There is no handler to return from (R116). -/
def abort (r : Result) (s : State) : Host.Outcome State Fault Refusal :=
  .next (giveResult r s)

/-! ### The mask of UPDCH -/

/-- UPDCH's transient mask M and error flag E (R28). -/
structure MaskAcc where
  m : Word
  e : Bool
deriving DecidableEq, Repr

/-- One entry of UPDCH's loop (R84). -/
def maskStep (acc : MaskAcc) (c : Channel) : MaskAcc :=
  if validChannel c then { acc with m := acc.m ||| maskBit c } else { acc with e := true }

/-- UPDCH's loop, in list order, from M = 0x0000 and E = 0 (R84). -/
def maskLoop (list : List Channel) : MaskAcc :=
  list.foldl maskStep { m := 0x0000#16, e := false }

/-! ### The power algorithm -/

/-- The working words W and touched flags T of a power request (R27). -/
structure Working where
  w : Shadow
  t0 : Bool
  t1 : Bool
deriving DecidableEq, Repr

/-- T[b] <- 1 (R94). -/
def touch (k : Working) : Bank → Working
  | .bank0 => { k with t0 := true }
  | .bank1 => { k with t1 := true }

/-- Applying one entry (R94): its channel's pair takes the entry's value and its bank is touched. -/
def applyEntry (cfg : Config) (k : Working) (e : PowerEntry) : Working :=
  let b := bankOf e.ch
  let word := writePair (readShadow k.w b) (posOf e.ch) (pairValue cfg e.up)
  touch { k with w := writeShadow k.w b word } b

/-- Applying a list, one entry at a time in list order (R93), from W = SH and T = 0 (R95). -/
def applyEntries (cfg : Config) (sh : Shadow) (list : List PowerEntry) : Working :=
  list.foldl (applyEntry cfg) { w := sh, t0 := false, t1 := false }

/-- E of a power request (R95): set where any entry's channel is out of range (R91). -/
def anyInvalid (list : List PowerEntry) : Bool :=
  list.any fun e => !validChannel e.ch

/-- The power frame of a bank: the bank's whole word (R95, R98). -/
def powerFrame (sh : Shadow) (b : Bank) : Event :=
  .frame (pack 0b0100#4 (bankAddr b) (readShadow sh b))

/-- The frames of the touched banks, bank 0 first (R92, R95, D7). -/
def powerFrames (k : Working) : List Event :=
  (if k.t0 then [powerFrame k.w .bank0] else []) ++ (if k.t1 then [powerFrame k.w .bank1] else [])

/-- The batch power algorithm (R95): validate, apply, commit, send the touched banks. -/
def powerRequest (list : List PowerEntry) (s : State) : Host.Outcome State Fault Refusal :=
  if anyInvalid list then abort .errRange s
  else
    let k := applyEntries s.cfg s.sh list
    complete .ok (emitAll { s with sh := k.w } (powerFrames k))

/-! ### Reset -/

/-- The event list of the reset sequence, in order (R129, D15). -/
def resetEvents (cfg : Config) : List Event :=
  [.line .sel true, .line .lat true, .line .rst true, .line .rst false, .waitMs cfg.resetPulseMs, .line .rst true]

/-- The reset sequence (R129): both shadow words to 0x0000, then the event list. It is no request and gives no result
code. -/
def performReset (s : State) : State :=
  emitAll { s with sh := { w0 := 0x0000#16, w1 := 0x0000#16 } } (resetEvents s.cfg)

/-! ### The transport -/

/-- What the transport makes of an outcome from `s`: where it is stalled and the step has given out an event, that event
is never completed and the request never ends (R141, D30); a step without events needs no transport. -/
def withTransport (s : State) (o : Host.Outcome State Fault Refusal) : Host.Outcome State Fault Refusal :=
  match o with
  | .next t =>
    if s.stalled && decide (s.events.length < t.events.length) then .fault .transportStalled else .next t
  | .fault f => .fault f
  | .refused r => .refused r

/-- The refusal for what does not decode. -/
def refusalOf : DecodeError → Refusal
  | .shortRequest => .incompleteRequest
  | .notARequest => .incompleteRequest

/-- From here on the transport completes no event (R124). -/
def stallTransport (s : State) : State :=
  { s with stalled := true }

/-- One call of the transport's interface (R123). -/
inductive TransportCall where
  /-- `configureBus(clockPhaseAndPolarity, bitOrder = MSB-first)`. -/
  | configureBus (mode : SpiMode)
  | beginTransaction
  | endTransaction
  /-- `transferByte(byte)`; its returned byte is ignored (R71). -/
  | transferByte (b : Byte)
  /-- `setLine(lineId, level)`. -/
  | setLine (id : LineId) (level : Bool)
  /-- `delay(microseconds)`. -/
  | delayUs (n : Delay)
  /-- `delay(milliseconds)`. -/
  | delayMs (n : Nat)
deriving DecidableEq, Repr

/-- A wire step as a call of the transport (R123). -/
def wireCall : WireStep → TransportCall
  | .line id level => .setLine id level
  | .byte b => .transferByte b
  | .waitUs n => .delayUs n
  | .waitMs n => .delayMs n

/-- An event as calls of the transport (R123), in the form that configures and claims the bus for each frame; R67 lets the
transport do so once instead, which the events do not show (log entry 15). -/
def transportCalls (cfg : Config) : Event → List TransportCall
  | .frame f =>
    .configureBus cfg.spiMode :: .beginTransaction :: ((wireExpansion (.frame f)).map wireCall ++ [.endTransaction])
  | .line id level => [.setLine id level]
  | .waitUs n => [.delayUs n]
  | .waitMs n => [.delayMs n]

end Sys2Proof.Machine
end

