-- ==== Sys2Proof/Machine/Channel.lean ====
section
/-! DEFINITION. SETCH, UPDCH and LDAC (spec/41_channel_ops.md). -/

namespace Sys2Proof.Machine

/-- SETCH (R81). -/
def execSetch (ch : Channel) (code : Word) (imm verbose : Bool) (s : State) : Host.Outcome State Fault Refusal :=
  if validChannel ch then
    complete (setchResult s.cfg.resolution code verbose)
      (emitFrame (setchCommand imm) (channelAddr ch) (shape s.cfg.resolution code) s)
  else abort .errRange s

/-- UPDCH (R84). -/
def execUpdch (list : List Channel) (s : State) : Host.Outcome State Fault Refusal :=
  let acc := maskLoop list
  if acc.e then abort .errRange s
  else complete .ok (emitFrame 0b0010#4 updAddr acc.m s)

/-- LDAC's event list (R87): no wait where the delay is 0 (D14). -/
def ldacEvents (delay : Delay) : List Event :=
  .line .lat false :: ((if 0 < delay.toNat then [.waitUs delay] else []) ++ [.line .lat true])

/-- LDAC (R87): OK always. -/
def execLdac (delay : Delay) (s : State) : Host.Outcome State Fault Refusal :=
  complete .ok (emitAll s (ldacEvents delay))

end Sys2Proof.Machine
end

