-- ==== Sys2Proof/Machine/Frames.lean ====
section
/-! DEFINITION. The sixteen frames of spec/30_encoding.md R52, each by itself: one FRAME event with its wire expansion (R68).
The block has no semantics for a frame beyond packing it and handing it over (R58, R64), the same for every command code; a
frame is no request and gives no result code (log entry 6). What the chip does with it is not modelled (R5, R30). -/

namespace Sys2Proof.Machine

/-- FRM_UNNAMED_0: command 0x0, not named (R58). -/
def execFrmUnnamed0 (addr : Nibble) (data : Word) (s : State) : Host.Outcome State Fault Refusal :=
  .next (emitFrame 0x0#4 addr data s)

/-- FRM_WRITE_INPUT: command 0x1, write-input-register (R81). -/
def execFrmWriteInput (addr : Nibble) (data : Word) (s : State) : Host.Outcome State Fault Refusal :=
  .next (emitFrame 0x1#4 addr data s)

/-- FRM_UPDATE_DAC: command 0x2, update-DAC-register from input (R84). -/
def execFrmUpdateDac (addr : Nibble) (data : Word) (s : State) : Host.Outcome State Fault Refusal :=
  .next (emitFrame 0x2#4 addr data s)

/-- FRM_WRITE_DAC: command 0x3, write-DAC-register directly (R81). -/
def execFrmWriteDac (addr : Nibble) (data : Word) (s : State) : Host.Outcome State Fault Refusal :=
  .next (emitFrame 0x3#4 addr data s)

/-- FRM_POWER: command 0x4, power-up/down (R95); SH is written by PWR and PWRB only (R20, D13). -/
def execFrmPower (addr : Nibble) (data : Word) (s : State) : Host.Outcome State Fault Refusal :=
  .next (emitFrame 0x4#4 addr data s)

/-- FRM_LDAC_MASK: command 0x5, LDAC-mask, unimplemented (R58). -/
def execFrmLdacMask (addr : Nibble) (data : Word) (s : State) : Host.Outcome State Fault Refusal :=
  .next (emitFrame 0x5#4 addr data s)

/-- FRM_SW_RESET: command 0x6, software-reset, unimplemented (R58). -/
def execFrmSwReset (addr : Nibble) (data : Word) (s : State) : Host.Outcome State Fault Refusal :=
  .next (emitFrame 0x6#4 addr data s)

/-- FRM_REF_SETUP: command 0x7, reference-setup (R103). -/
def execFrmRefSetup (addr : Nibble) (data : Word) (s : State) : Host.Outcome State Fault Refusal :=
  .next (emitFrame 0x7#4 addr data s)

/-- FRM_DAISY_CHAIN: command 0x8, daisy-chain, unimplemented (R58). -/
def execFrmDaisyChain (addr : Nibble) (data : Word) (s : State) : Host.Outcome State Fault Refusal :=
  .next (emitFrame 0x8#4 addr data s)

/-- FRM_READBACK: command 0x9, readback, unimplemented (R58). -/
def execFrmReadback (addr : Nibble) (data : Word) (s : State) : Host.Outcome State Fault Refusal :=
  .next (emitFrame 0x9#4 addr data s)

/-- FRM_WRITE_ALL_INPUT: command 0xA, write-all-input, unimplemented (R58). -/
def execFrmWriteAllInput (addr : Nibble) (data : Word) (s : State) : Host.Outcome State Fault Refusal :=
  .next (emitFrame 0xA#4 addr data s)

/-- FRM_WRITE_ALL_DAC: command 0xB, write-all-DAC, unimplemented (R58). -/
def execFrmWriteAllDac (addr : Nibble) (data : Word) (s : State) : Host.Outcome State Fault Refusal :=
  .next (emitFrame 0xB#4 addr data s)

/-- FRM_UNNAMED_C: command 0xC, not named (R58). -/
def execFrmUnnamedC (addr : Nibble) (data : Word) (s : State) : Host.Outcome State Fault Refusal :=
  .next (emitFrame 0xC#4 addr data s)

/-- FRM_UNNAMED_D: command 0xD, not named (R58). -/
def execFrmUnnamedD (addr : Nibble) (data : Word) (s : State) : Host.Outcome State Fault Refusal :=
  .next (emitFrame 0xD#4 addr data s)

/-- FRM_UNNAMED_E: command 0xE, not named (R58). -/
def execFrmUnnamedE (addr : Nibble) (data : Word) (s : State) : Host.Outcome State Fault Refusal :=
  .next (emitFrame 0xE#4 addr data s)

/-- FRM_UNNAMED_F: command 0xF, not named (R58). -/
def execFrmUnnamedF (addr : Nibble) (data : Word) (s : State) : Host.Outcome State Fault Refusal :=
  .next (emitFrame 0xF#4 addr data s)

end Sys2Proof.Machine
end

