-- ==== Sys2Proof/Machine/Illegal.lean ====
section
/-! DEFINITION. The illegal request ops (spec/30_encoding.md R56, spec/60_exceptions.md R110). -/

namespace Sys2Proof.Machine

/-- ILLEGAL_OP (R56, R110): `abort(ERR_OPCODE)`, whatever the op's value and operand fields. -/
def execIllegalOp (_op : Nibble) (s : State) : Host.Outcome State Fault Refusal :=
  abort .errOpcode s

end Sys2Proof.Machine
end

