-- ==== Sys2Proof/Machine/Power.lean ====
section
/-! DEFINITION. PWR and PWRB (spec/42_power.md). -/

namespace Sys2Proof.Machine

/-- PWR (R98): PWRB with a one-entry list. -/
def execPwr (ch : Channel) (up : Bool) (s : State) : Host.Outcome State Fault Refusal :=
  powerRequest [{ ch := ch, up := up }] s

/-- PWRB (R95). -/
def execPwrb (list : List PowerEntry) (s : State) : Host.Outcome State Fault Refusal :=
  powerRequest list s

end Sys2Proof.Machine
end

