-- ==== Sys2Proof/Machine/Raw.lean ====
section
/-! DEFINITION. WRAW (spec/40_frame_encoder.md). -/

namespace Sys2Proof.Machine

/-- WRAW (R73): the frame as given, OK always; SH is not touched, for command 0b0100 either (D13). -/
def execWraw (cmd addr : Nibble) (data : Word) (s : State) : Host.Outcome State Fault Refusal :=
  complete .ok (emitFrame cmd addr data s)

end Sys2Proof.Machine
end

