-- ==== Sys2Proof/Machine/Reference.lean ====
section
/-! DEFINITION. SETREF (spec/43_reference.md). -/

namespace Sys2Proof.Machine

/-- SETREF (R103): OK always; it reads and writes no state of the block (R102). -/
def execSetref (ext : Bool) (s : State) : Host.Outcome State Fault Refusal :=
  complete .ok (emitFrame 0b0111#4 refAddr (refPayload ext) s)

end Sys2Proof.Machine
end

