-- ==== Sys2Proof/Machine/Dispatch.lean ====
section
/-! DEFINITION. One arm per constructor of Instr, each one call of its meaning. -/

namespace Sys2Proof.Machine

def exec (i : Instr) (s : State) : Host.Outcome State Fault Refusal :=
  match i with
  | .wraw cmd addr data => Sys2Proof.Machine.execWraw cmd addr data s
  | .setch ch code imm verbose => Sys2Proof.Machine.execSetch ch code imm verbose s
  | .updch list => Sys2Proof.Machine.execUpdch list s
  | .pwr ch up => Sys2Proof.Machine.execPwr ch up s
  | .pwrb list => Sys2Proof.Machine.execPwrb list s
  | .setref ext => Sys2Proof.Machine.execSetref ext s
  | .ldac delay => Sys2Proof.Machine.execLdac delay s
  | .illegalOp op => Sys2Proof.Machine.execIllegalOp op s
  | .frmUnnamed0 addr data => Sys2Proof.Machine.execFrmUnnamed0 addr data s
  | .frmWriteInput addr data => Sys2Proof.Machine.execFrmWriteInput addr data s
  | .frmUpdateDac addr data => Sys2Proof.Machine.execFrmUpdateDac addr data s
  | .frmWriteDac addr data => Sys2Proof.Machine.execFrmWriteDac addr data s
  | .frmPower addr data => Sys2Proof.Machine.execFrmPower addr data s
  | .frmLdacMask addr data => Sys2Proof.Machine.execFrmLdacMask addr data s
  | .frmSwReset addr data => Sys2Proof.Machine.execFrmSwReset addr data s
  | .frmRefSetup addr data => Sys2Proof.Machine.execFrmRefSetup addr data s
  | .frmDaisyChain addr data => Sys2Proof.Machine.execFrmDaisyChain addr data s
  | .frmReadback addr data => Sys2Proof.Machine.execFrmReadback addr data s
  | .frmWriteAllInput addr data => Sys2Proof.Machine.execFrmWriteAllInput addr data s
  | .frmWriteAllDac addr data => Sys2Proof.Machine.execFrmWriteAllDac addr data s
  | .frmUnnamedC addr data => Sys2Proof.Machine.execFrmUnnamedC addr data s
  | .frmUnnamedD addr data => Sys2Proof.Machine.execFrmUnnamedD addr data s
  | .frmUnnamedE addr data => Sys2Proof.Machine.execFrmUnnamedE addr data s
  | .frmUnnamedF addr data => Sys2Proof.Machine.execFrmUnnamedF addr data s

end Sys2Proof.Machine
end

