-- ==== Sys2Proof/Machine/Step.lean ====
section
/-! DEFINITION. One step of the machine: the block takes the next thing presented at its port (spec/10_state.md R22), or
stays idle where there is none (spec/60_exceptions.md R127). -/

namespace Sys2Proof.Machine

/-- One step. Requests and resets are taken one at a time, in the host's order, each as one atomic step (R12, R29, R132). -/
def step (s : State) : Host.Outcome State Fault Refusal :=
  match s.port with
  | [] => .next s
  | .reset :: rest => withTransport s (.next (performReset { s with port := rest }))
  | .stall :: rest => .next (stallTransport { s with port := rest })
  | p :: rest =>
    match decode p with
    | .ok i => withTransport s (exec i { s with port := rest })
    | .error e => .refused (refusalOf e)

/-- `s` with an opcode-table word presented before anything else, and a transport that completes its events, so that the
next step takes and runs exactly that instruction (log entry 8). -/
def State.withFetchWord (s : State) (nbits w : Nat) : State :=
  { s with port := presentWord nbits w :: s.port, stalled := false }

end Sys2Proof.Machine
end

