-- ==== Sys2Proof/Machine/Driver.lean ====
section
/-! DEFINITION. The document's calls and the requests they become (spec/30_encoding.md R61): the block's part of R61. The
host's part (the voltage conversion and the reference voltage of R121 and R122) is outside the block (R5, D25). -/

namespace Sys2Proof.Machine

/-- The document's calls of R61. -/
inductive DriverCall where
  /-- `setChannel(c, voltage, imm, verbose)`, after the host has computed `code` (R121). -/
  | setChannel (ch : Channel) (code : Word) (imm verbose : Bool)
  | updateChannels (channels : List Channel)
  /-- `setReference(internal)`. -/
  | setReferenceInternal (internal : Bool)
  /-- `setReference(voltage)`; the host records the voltage. -/
  | setReferenceVoltage
  | powerUpDown (ch : Channel) (up : Bool)
  /-- `powerUpDown(channels, ups)`. -/
  | powerUpDownBatch (channels : List Channel) (ups : List Bool)
  | updateDac (delay : Delay)
  | writeData (cmd addr : Nibble) (data : Word)
  /-- The full power re-synchronisation after a restart (R135): the intended state of each of the 16 channels. -/
  | resynchronise (ups : Vector Bool 16)
  /-- Device construction. -/
  | construct
deriving DecidableEq, Repr

/-- A PWRB entry pairs `channelList[i]` with `powerUpList[i]` (R49); none for lists of unequal length, which the request
format cannot write (N8, D8). -/
def pairEntries : List Channel → List Bool → Option (List PowerEntry)
  | [], [] => some []
  | c :: cs, u :: us => (pairEntries cs us).map ({ ch := c, up := u } :: ·)
  | [], _ :: _ => none
  | _ :: _, [] => none

/-- The entries `(0,u0), (1,u1), …, (15,u15)` of a re-synchronisation (R61, R135). -/
def resyncEntries (ups : Vector Bool 16) : List PowerEntry :=
  (List.range 16).map fun c => { ch := BitVec.ofNat 8 c, up := ups.getD c false }

/-- What the host presents for a call (R61). -/
def driverRequest : DriverCall → Option Presented
  | .setChannel ch code imm verbose => some (encode (.setch ch code imm verbose))
  | .updateChannels channels => some (encode (.updch channels))
  | .setReferenceInternal internal => some (encode (.setref (!internal)))
  | .setReferenceVoltage => some (encode (.setref true))
  | .powerUpDown ch up => some (encode (.pwr ch up))
  | .powerUpDownBatch channels ups => (pairEntries channels ups).map fun l => encode (.pwrb l)
  | .updateDac delay => some (encode (.ldac delay))
  | .writeData cmd addr data => some (encode (.wraw cmd addr data))
  | .resynchronise ups => some (encode (.pwrb (resyncEntries ups)))
  | .construct => some .reset

end Sys2Proof.Machine
end

