-- ==== Sys2Proof/Safety.lean ====
section
/-! DEFINITION. What the statements are said in: the invariants of the state, the shape of the wire, and what a request
names. -/

namespace Sys2Proof.Machine

/-- Every bit pair of a shadow word is 0b00 or PD_PATTERN (spec/10_state.md R33). -/
abbrev PairsLegal (cfg : Config) (w : Word) : Prop :=
  ∀ k < 8, readPair w (2 * k) = 0b00#2 ∨ readPair w (2 * k) = powerDownBits cfg.powerDown

/-- R33 for both shadow words. -/
abbrev ShadowLegal (s : State) : Prop :=
  PairsLegal s.cfg s.sh.w0 ∧ PairsLegal s.cfg s.sh.w1

/-- The three level registers between requests (R25). -/
abbrev LinesHigh (s : State) : Prop :=
  s.selQ = true ∧ s.latQ = true ∧ s.rstQ = true

/-- The level a list of wire steps drives last on a line; none where it drives none. -/
def lastLevel (id : LineId) : List WireStep → Option Bool
  | [] => none
  | .line id' level :: rest =>
    match lastLevel id rest with
    | some l => some l
    | none => if id' = id then some level else none
  | .byte _ :: rest => lastLevel id rest
  | .waitUs _ :: rest => lastLevel id rest
  | .waitMs _ :: rest => lastLevel id rest

/-- Each level register holds the level the block last drove on its line (R25). -/
abbrev LevelsFollowWire (s : State) : Prop :=
  ∀ id : LineId, lastLevel id (wireOf s.events) = some (lineLevel s id)

/-- The wire is framed: every low pulse of the select line holds exactly three bytes and nothing else, and no byte stands
outside a pulse (R37, R69, R72). -/
def wellFramed : List WireStep → Bool
  | [] => true
  | .line .sel false :: .byte _ :: .byte _ :: .byte _ :: .line .sel true :: rest => wellFramed rest
  | .line .sel false :: _ => false
  | .byte _ :: _ => false
  | .line .sel true :: rest => wellFramed rest
  | .line .lat _ :: rest => wellFramed rest
  | .line .rst _ :: rest => wellFramed rest
  | .waitUs _ :: rest => wellFramed rest
  | .waitMs _ :: rest => wellFramed rest

/-- The state between requests after reset (R25, R33, R72). -/
structure BetweenRequests (s : State) : Prop where
  shadow : ShadowLegal s
  lines : LinesHigh s
  levels : LevelsFollowWire s
  framed : wellFramed (wireOf s.events) = true

/-- The frames of an event list, in order. -/
def framesOf : List Event → List Frame
  | [] => []
  | .frame f :: rest => f :: framesOf rest
  | .line _ _ :: rest => framesOf rest
  | .waitUs _ :: rest => framesOf rest
  | .waitMs _ :: rest => framesOf rest

/-- The number of reset pulses of an event list (R131). -/
def resetPulses (events : List Event) : Nat :=
  events.countP fun e => decide (e = .line .rst false)

/-- The channel operands a request carries (R76). -/
def channelOperands : Instr → List Channel
  | .setch ch _ _ _ => [ch]
  | .updch list => list
  | .pwr ch _ => [ch]
  | .pwrb list => list.map PowerEntry.ch
  | .wraw _ _ _ => []
  | .setref _ => []
  | .ldac _ => []
  | .illegalOp _ => []
  | .frmUnnamed0 _ _ => []
  | .frmWriteInput _ _ => []
  | .frmUpdateDac _ _ => []
  | .frmWriteDac _ _ => []
  | .frmPower _ _ => []
  | .frmLdacMask _ _ => []
  | .frmSwReset _ _ => []
  | .frmRefSetup _ _ => []
  | .frmDaisyChain _ _ => []
  | .frmReadback _ _ => []
  | .frmWriteAllInput _ _ => []
  | .frmWriteAllDac _ _ => []
  | .frmUnnamedC _ _ => []
  | .frmUnnamedD _ _ => []
  | .frmUnnamedE _ _ => []
  | .frmUnnamedF _ _ => []

/-- The requests: what gives back a result code (R48). The frame rows are none (log entry 6). -/
def isRequest (i : Instr) : Bool :=
  (frameFields i).isNone

/-- The typed requests: SETCH, UPDCH, PWR, PWRB and SETREF (R57). -/
def isTyped : Instr → Bool
  | .setch _ _ _ _ => true
  | .updch _ => true
  | .pwr _ _ => true
  | .pwrb _ => true
  | .setref _ => true
  | .wraw _ _ _ => false
  | .ldac _ => false
  | .illegalOp _ => false
  | .frmUnnamed0 _ _ => false
  | .frmWriteInput _ _ => false
  | .frmUpdateDac _ _ => false
  | .frmWriteDac _ _ => false
  | .frmPower _ _ => false
  | .frmLdacMask _ _ => false
  | .frmSwReset _ _ => false
  | .frmRefSetup _ _ => false
  | .frmDaisyChain _ _ => false
  | .frmReadback _ _ => false
  | .frmWriteAllInput _ _ => false
  | .frmWriteAllDac _ _ => false
  | .frmUnnamedC _ _ => false
  | .frmUnnamedD _ _ => false
  | .frmUnnamedE _ _ => false
  | .frmUnnamedF _ _ => false

/-- The power requests, the only writers of SH (R20, R31). -/
def isPower : Instr → Bool
  | .pwr _ _ => true
  | .pwrb _ => true
  | .wraw _ _ _ => false
  | .setch _ _ _ _ => false
  | .updch _ => false
  | .setref _ => false
  | .ldac _ => false
  | .illegalOp _ => false
  | .frmUnnamed0 _ _ => false
  | .frmWriteInput _ _ => false
  | .frmUpdateDac _ _ => false
  | .frmWriteDac _ _ => false
  | .frmPower _ _ => false
  | .frmLdacMask _ _ => false
  | .frmSwReset _ _ => false
  | .frmRefSetup _ _ => false
  | .frmDaisyChain _ _ => false
  | .frmReadback _ _ => false
  | .frmWriteAllInput _ _ => false
  | .frmWriteAllDac _ _ => false
  | .frmUnnamedC _ _ => false
  | .frmUnnamedD _ _ => false
  | .frmUnnamedE _ _ => false
  | .frmUnnamedF _ _ => false

/-- The last entry of a list that names channel `n`, and its `up` (spec/42_power.md R93); none where no entry does. -/
def lastUp : List PowerEntry → Nat → Option Bool
  | [], _ => none
  | e :: es, n =>
    match lastUp es n with
    | some up => some up
    | none => if e.ch.toNat = n then some e.up else none

/-- What a list leaves in the pair of channel `n` (R93, R94): 0b00 or PD_PATTERN as the last entry for it says, and the old
pair where none names it. -/
def pairAfter (cfg : Config) (list : List PowerEntry) (n : Nat) (old : BitVec 2) : BitVec 2 :=
  match lastUp list n with
  | some true => 0b00#2
  | some false => powerDownBits cfg.powerDown
  | none => old

/-- The op value of a request (R48); none for a frame row. -/
def requestOp : Instr → Option Nibble
  | .wraw _ _ _ => some 0x1#4
  | .setch _ _ _ _ => some 0x2#4
  | .updch _ => some 0x3#4
  | .pwr _ _ => some 0x4#4
  | .pwrb _ => some 0x5#4
  | .setref _ => some 0x6#4
  | .ldac _ => some 0x7#4
  | .illegalOp op => some op
  | .frmUnnamed0 _ _ => none
  | .frmWriteInput _ _ => none
  | .frmUpdateDac _ _ => none
  | .frmWriteDac _ _ => none
  | .frmPower _ _ => none
  | .frmLdacMask _ _ => none
  | .frmSwReset _ _ => none
  | .frmRefSetup _ _ => none
  | .frmDaisyChain _ _ => none
  | .frmReadback _ _ => none
  | .frmWriteAllInput _ _ => none
  | .frmWriteAllDac _ _ => none
  | .frmUnnamedC _ _ => none
  | .frmUnnamedD _ _ => none
  | .frmUnnamedE _ _ => none
  | .frmUnnamedF _ _ => none

/-- What a run shows of itself (R128): the result codes, the concatenated events and the final S of R19. -/
structure Observation where
  results : List Result
  events : List Event
  sh : Shadow
  selQ : Bool
  latQ : Bool
  rstQ : Bool
deriving DecidableEq, Repr

/-- The observation of a run that ends in `s` (R128). -/
def observe (s : State) : Observation :=
  { results := s.results, events := s.events, sh := s.sh, selQ := s.selQ, latQ := s.latQ, rstQ := s.rstQ }

/-- The runs the spec speaks of: from the post-reset state of any build (R32, R128, D28), the outside world may present
anything at any time (R120), and the block steps. -/
inductive Reachable : State → Prop where
  | start (cfg : Config) : Reachable (performReset { State.reset with cfg := cfg, events := [] })
  | present {s : State} (p : Presented) : Reachable s → Reachable { s with port := s.port ++ [p] }
  | step {s t : State} : Reachable s → step s = .next t → Reachable t

end Sys2Proof.Machine
end

