-- ==== Sys2Proof/Certificates/Slice0/Obligations.lean ====
section
/-! DEFINITION. The statements about the block, from the numbered rules of spec/. Frames are written out as
`command ++ address ++ data`, masks and shadow words bit by bit, and next states field by field: a field that is not named
after `with` is unchanged. -/

open Sys2Proof Sys2Proof.Machine

/-! ### Encodings -/

/-- Decoding what a host presents for an instruction gives that instruction, with every operand at every value and every
list (R48 to R52): for all that the port accepts, the well-formed ones and the illegal requests (R62). The order of a request's bits is the model's choice (log entry 5). -/
def Obligations.DecodeOfEncodeIsTheInstruction : Prop :=
  ∀ i : Instr, i.accepted = true → decode (encode i) = .ok i

/-- Every 24-bit value reads back as C = f[23:20], A = f[19:16], D = f[15:0], and that instruction encodes as the same
frame (R59). -/
def Obligations.EveryFrameReadsBackAsItsFields : Prop :=
  ∀ f : Frame,
    frameFields (decodeFrame f) = some (f.extractLsb' 20 4, f.extractLsb' 16 4, f.extractLsb' 0 16) ∧
      encode (decodeFrame f) = .frame f

/-- R63: the header byte is (cmd << 4) | addr, the data follow high byte first, and distinct triples give distinct
frames. -/
def Obligations.PackLaysOutTheFieldsInjectively : Prop :=
  (∀ (cmd addr : Nibble) (data : Word),
    pack cmd addr data = (cmd ++ addr) ++ data ∧
    (pack cmd addr data).extractLsb' 16 8 = (cmd.setWidth 8 <<< 4) ||| addr.setWidth 8 ∧
    (pack cmd addr data).extractLsb' 8 8 = data.extractLsb' 8 8 ∧
    (pack cmd addr data).extractLsb' 0 8 = data.extractLsb' 0 8) ∧
  ∀ (c c' a a' : Nibble) (d d' : Word), pack c a d = pack c' a' d' → c = c' ∧ a = a' ∧ d = d'

/-- A few words decode to what they stand for: the op values of R48 (the order of the operand bits is the model's, log
entry 5) and frames of R51 and R52. -/
def Obligations.SampleWordsDecodeAsTheTableSays : Prop :=
  decodeTableWord 32 0x00001071 = some (.wraw 0x7#4 0x0#4 0x0001#16) ∧
  decodeTableWord 32 0x00ABC032 = some (.setch 0x03#8 0x0ABC#16 false false) ∧
  decodeTableWord 8 0x09 = some (.illegalOp 0x9#4) ∧
  decodeTableWord 24 0x13ABC0 = some (.frmWriteInput 0x3#4 0xABC0#16) ∧
  decodeTableWord 24 0x48C003 = some (.frmPower 0x8#4 0xC003#16)

/-- The op field selects the operation (R48): a request whose op field reads `op` decodes to an instruction of that op, and
one with an op R48 does not assign decodes whatever bits follow (R56, R110). That the op is a request's first four bits,
least significant first, and that any bits may follow an illegal op is the model's choice (log entry 5). -/
def Obligations.OpFieldSelectsTheOperation : Prop :=
  ∀ (bits rest : List Bool) (op : Nibble), takeField 4 bits = some (op, rest) →
    (∀ i, decode (.request bits) = .ok i → requestOp i = some op) ∧
    (legalOp op = false → decode (.request bits) = .ok (.illegalOp op))

/-- R62 on the bits of a request: a request is well-formed exactly where it is the record of a well-formed instruction, its op
is then one of 0x1 to 0x7, and one with any other op is ill-formed, which the port still accepts (R56). The order of the bits
and what stands behind a record is the model's choice (log entry 5). -/
def Obligations.WellFormedRequestsAreTheRecordsOfAssignedOps : Prop :=
  (∀ bits : List Bool, wellFormedRequest bits = true ↔ ∃ i : Instr, i.wellFormed = true ∧ encode i = .request bits) ∧
  ∀ (bits rest : List Bool) (op : Nibble), takeField 4 bits = some (op, rest) →
    (wellFormedRequest bits = true → 1 ≤ op.toNat ∧ op.toNat ≤ 7) ∧
    ((op = 0x0#4 ∨ 8 ≤ op.toNat) →
      wellFormedRequest bits = false ∧ ∃ i : Instr, decode (.request bits) = .ok i ∧ i.wellFormed = false ∧ i.accepted = true)

/-! ### The step -/

/-- Where what stands first at the port decodes to an instruction and the transport completes its events, the step is that
instruction's meaning on the state without it. -/
def Obligations.StepRunsTheDecodedInstruction : Prop :=
  ∀ (s : State) (p : Presented) (rest : List Presented) (i : Instr),
    s.port = p :: rest → decode p = .ok i → s.stalled = false → step s = exec i { s with port := rest }

/-- With nothing presented the block is idle and nothing changes: there is no background activity (R117, R127). -/
def Obligations.IdleBlockStaysAsItIs : Prop :=
  ∀ s : State, s.port = [] → step s = .next s

/-- What is presented is taken in the host's order (R22): a step takes the first thing presented and nothing else. -/
def Obligations.StepTakesWhatIsPresentedFirst : Prop :=
  ∀ s t : State, step s = .next t → t.port = s.port.tail

/-- A request whose transport never completes its event never ends, complete or aborted, and neither does a reset (R141): a
stall presented at the port stalls the transport and changes nothing else, no step ends the stall, and while it lasts a step
that ends has given out no event. How the stall is presented, that it is for good and that a step without an event still ends
is the model's reading (log entry 9). -/
def Obligations.StalledTransportLeavesTheRequestUnfinished : Prop :=
  (∀ (s : State) (rest : List Presented), s.port = .stall :: rest →
    step s = .next { s with port := rest, stalled := true }) ∧
  (∀ (s t : State) (p : Presented) (rest : List Presented) (i : Instr), s.stalled = true → s.port = p :: rest →
    decode p = .ok i → exec i { s with port := rest } = .next t → t.events ≠ s.events →
      step s = .fault .transportStalled) ∧
  (∀ (s : State) (rest : List Presented), s.stalled = true → s.port = .reset :: rest →
    step s = .fault .transportStalled) ∧
  ∀ s t : State, s.stalled = true → step s = .next t → t.stalled = true ∧ t.events = s.events

/-! ### Each instruction -/

/-- R73: WRAW sends the frame as given, returns OK, and changes nothing but the select pulse that ends at 1; SH is
unchanged for every command, 0b0100 included. -/
def Obligations.WrawSendsTheFrameAsGiven : Prop :=
  ∀ (cmd addr : Nibble) (data : Word) (s : State),
    requestOp (.wraw cmd addr data) = some 0x1#4 ∧
    exec (.wraw cmd addr data) s =
      .next { s with
        selQ := true
        events := s.events ++ [.frame ((cmd ++ addr) ++ data)]
        results := s.results ++ [.ok] }

/-- R81: SETCH writes the shaped code to the named channel, directly where imm = 1 and to its input register where
imm = 0, and warns of truncation where RES = 12, the code exceeds 0x0FFF and verbose = 1; a channel of 16 or more aborts
with nothing sent. -/
def Obligations.SetchSendsTheShapedCode : Prop :=
  ∀ (ch : Channel) (code : Word) (imm verbose : Bool) (s : State),
    requestOp (.setch ch code imm verbose) = some 0x2#4 ∧
    (ch.toNat < 16 →
      exec (.setch ch code imm verbose) s =
        .next { s with
          selQ := true
          events := s.events ++
            [.frame (((if imm then 0b0011#4 else 0b0001#4) ++ ch.extractLsb' 0 4) ++
              (if s.cfg.resolution = .res12 then (code.extractLsb' 0 12 ++ 0b0000#4 : BitVec 16) else code))]
          results := s.results ++
            [if s.cfg.resolution = .res12 ∧ 0x0FFF < code.toNat ∧ verbose = true then .okWarnTrunc else .ok] }) ∧
    (16 ≤ ch.toNat → exec (.setch ch code imm verbose) s = .next { s with results := s.results ++ [.errRange] })

/-- R84: UPDCH sends one frame whose data has bit c set exactly where the list names channel c; one channel of 16 or more
aborts the whole list. -/
def Obligations.UpdchSendsTheMaskOfTheListedChannels : Prop :=
  ∀ (list : List Channel) (s : State),
    requestOp (.updch list) = some 0x3#4 ∧
    ((∀ c ∈ list, c.toNat < 16) →
      ∃ m : Word, (∀ c < 16, m.getLsbD c = list.any fun ch => decide (ch.toNat = c)) ∧
        exec (.updch list) s =
          .next { s with
            selQ := true
            events := s.events ++ [.frame ((0b0010#4 ++ 0b0000#4) ++ m)]
            results := s.results ++ [.ok] }) ∧
    ((∃ c ∈ list, 16 ≤ c.toNat) → exec (.updch list) s = .next { s with results := s.results ++ [.errRange] })

/-- R84's corner cases: neither the order of the entries nor duplicates matter. -/
def Obligations.UpdchReadsItsListAsASet : Prop :=
  ∀ (l l' : List Channel) (s : State), (∀ c, c ∈ l ↔ c ∈ l') → exec (.updch l) s = exec (.updch l') s

/-- R98: PWR puts 0b00 (up) or PD_PATTERN (down) into its channel's pair, leaves every other pair of both banks, and sends
its bank's whole word and no other frame; a channel of 16 or more aborts. It is PWRB with a list of one entry. -/
def Obligations.PwrSetsOnePairAndSendsItsBank : Prop :=
  ∀ (ch : Channel) (up : Bool) (s : State),
    requestOp (.pwr ch up) = some 0x4#4 ∧
    (ch.toNat < 8 → ∃ w : Word,
      readPair w (2 * ch.toNat) = (if up then 0b00#2 else powerDownBits s.cfg.powerDown) ∧
      (∀ k < 8, k ≠ ch.toNat → readPair w (2 * k) = readPair s.sh.w0 (2 * k)) ∧
      exec (.pwr ch up) s =
        .next { s with
          sh := { s.sh with w0 := w }
          selQ := true
          events := s.events ++ [.frame ((0b0100#4 ++ 0b0000#4) ++ w)]
          results := s.results ++ [.ok] }) ∧
    (8 ≤ ch.toNat → ch.toNat < 16 → ∃ w : Word,
      readPair w (2 * (ch.toNat - 8)) = (if up then 0b00#2 else powerDownBits s.cfg.powerDown) ∧
      (∀ k < 8, k ≠ ch.toNat - 8 → readPair w (2 * k) = readPair s.sh.w1 (2 * k)) ∧
      exec (.pwr ch up) s =
        .next { s with
          sh := { s.sh with w1 := w }
          selQ := true
          events := s.events ++ [.frame ((0b0100#4 ++ 0b1000#4) ++ w)]
          results := s.results ++ [.ok] }) ∧
    (16 ≤ ch.toNat → exec (.pwr ch up) s = .next { s with results := s.results ++ [.errRange] }) ∧
    exec (.pwr ch up) s = exec (.pwrb [{ ch := ch, up := up }]) s

/-- R95 with R92 and R93: the last entry for a channel decides its pair, a channel no entry names keeps its pair, each bank
that an entry names sends its whole new word, bank 0 first, whether or not the word changed; one channel of 16 or more
aborts the whole list. -/
def Obligations.PwrbAppliesItsListAndSendsTheTouchedBanks : Prop :=
  ∀ (list : List PowerEntry) (s : State),
    requestOp (.pwrb list) = some 0x5#4 ∧
    ((∀ e ∈ list, e.ch.toNat < 16) → ∃ sh : Shadow,
      (∀ k < 8, readPair sh.w0 (2 * k) = pairAfter s.cfg list k (readPair s.sh.w0 (2 * k))) ∧
      (∀ k < 8, readPair sh.w1 (2 * k) = pairAfter s.cfg list (8 + k) (readPair s.sh.w1 (2 * k))) ∧
      exec (.pwrb list) s =
        .next { s with
          sh := sh
          selQ := if list = [] then s.selQ else true
          events := s.events ++
            ((if ∃ e ∈ list, e.ch.toNat < 8 then [.frame ((0b0100#4 ++ 0b0000#4) ++ sh.w0)] else []) ++
             (if ∃ e ∈ list, 8 ≤ e.ch.toNat then [.frame ((0b0100#4 ++ 0b1000#4) ++ sh.w1)] else []))
          results := s.results ++ [.ok] }) ∧
    ((∃ e ∈ list, 16 ≤ e.ch.toNat) → exec (.pwrb list) s = .next { s with results := s.results ++ [.errRange] })

/-- R96: a power request presented again leaves SH as the first left it and sends the same events. -/
def Obligations.RepeatedPowerRequestSendsTheSameFrames : Prop :=
  ∀ (i : Instr) (s t u : State), isPower i = true → exec i s = .next t → exec i t = .next u →
    u.sh = t.sh ∧ ∃ es, t.events = s.events ++ es ∧ u.events = t.events ++ es

/-- R97: where every pair holds 0b00 or PD_PATTERN, writing PD_PATTERN into a pair by replacement is OR-ing it in. -/
def Obligations.SettingAPairByReplacementOrByOrAgree : Prop :=
  ∀ (cfg : Config) (w : Word) (k : Nat), k < 8 → PairsLegal cfg w →
    writePair w (2 * k) (powerDownBits cfg.powerDown) =
      w ||| ((powerDownBits cfg.powerDown).setWidth 16 <<< (2 * k))

/-- R135: a power request that names all 16 channels, in any order and any number of times, leaves a shadow that does not
depend on the one before it, with every pair as the last entry for its channel says, and sends both banks. The
re-synchronisation of R61 is such a request, with each channel's intended state. -/
def Obligations.FullPowerRequestRestoresTheShadow : Prop :=
  (∀ (cfg : Config) (list : List PowerEntry), (∀ e ∈ list, e.ch.toNat < 16) → (∀ c < 16, ∃ e ∈ list, e.ch.toNat = c) →
    ∃ sh : Shadow,
      (∀ k < 8, ∃ up, lastUp list k = some up ∧
        readPair sh.w0 (2 * k) = if up then 0b00#2 else powerDownBits cfg.powerDown) ∧
      (∀ k < 8, ∃ up, lastUp list (8 + k) = some up ∧
        readPair sh.w1 (2 * k) = if up then 0b00#2 else powerDownBits cfg.powerDown) ∧
      ∀ s : State, s.cfg = cfg → exec (.pwrb list) s =
        .next { s with
          sh := sh
          selQ := true
          events := s.events ++
            [.frame ((0b0100#4 ++ 0b0000#4) ++ sh.w0), .frame ((0b0100#4 ++ 0b1000#4) ++ sh.w1)]
          results := s.results ++ [.ok] }) ∧
  ∀ ups : Vector Bool 16,
    (∀ e ∈ resyncEntries ups, e.ch.toNat < 16) ∧
    (∀ c < 16, ∃ e ∈ resyncEntries ups, e.ch.toNat = c) ∧
    ∀ c, (h : c < 16) → lastUp (resyncEntries ups) c = some ups[c]

/-- R103: SETREF sends 0x0000 (internal) or 0x0001 (external) to address 0b0000 (the spec's decision D6) and returns OK,
whatever the state. -/
def Obligations.SetrefSendsTheReferencePayload : Prop :=
  ∀ (ext : Bool) (s : State),
    requestOp (.setref ext) = some 0x6#4 ∧
    exec (.setref ext) s =
      .next { s with
        selQ := true
        events := s.events ++ [.frame ((0b0111#4 ++ 0b0000#4) ++ (if ext then 0x0001#16 else 0x0000#16))]
        results := s.results ++ [.ok] }

/-- R87: LDAC drives the latch line low, waits where the delay is above 0, drives it high, and returns OK; no frame and no
select event. -/
def Obligations.LdacPulsesTheLatchLine : Prop :=
  ∀ (delay : Delay) (s : State),
    requestOp (.ldac delay) = some 0x7#4 ∧
    (0 < delay.toNat →
      exec (.ldac delay) s =
        .next { s with
          latQ := true
          events := s.events ++ [.line .lat false, .waitUs delay, .line .lat true]
          results := s.results ++ [.ok] }) ∧
    exec (.ldac 0#32) s =
      .next { s with
        latQ := true
        events := s.events ++ [.line .lat false, .line .lat true]
        results := s.results ++ [.ok] }

/-- R110: an illegal op aborts with ERR_OPCODE, with no event and no other change, whatever the op's value. -/
def Obligations.IllegalOpAborts : Prop :=
  ∀ (op : Nibble) (s : State), exec (.illegalOp op) s = .next { s with results := s.results ++ [.errOpcode] }

/-- R110 at the port: a request whose op is 0x0 or 0x8 to 0xF ends so whatever bits follow its op, with or without a
transport that completes events. That the op is the first four bits with any bits behind is the model's choice (log entry 5),
and that a request without an event ends on a stalled transport is its reading (log entry 9). -/
def Obligations.IllegalRequestEndsWhateverItsOperands : Prop :=
  ∀ (s : State) (bits after : List Bool) (op : Nibble) (rest : List Presented),
    takeField 4 bits = some (op, after) → (op = 0x0#4 ∨ 8 ≤ op.toNat) → s.port = .request bits :: rest →
      step s = .next { s with port := rest, results := s.results ++ [.errOpcode] }

/-- The implemented frames of R52, each by itself: the frame is handed over once, unchanged; SH, the latch and reset lines
and the result codes stay. That a frame can be run without a request is the model's choice (log entry 6). -/
def Obligations.ImplementedFramesAreSentUnchanged : Prop :=
  ∀ (a : Nibble) (d : Word) (s : State),
    exec (.frmWriteInput a d) s =
      .next { s with selQ := true, events := s.events ++ [.frame ((0b0001#4 ++ a) ++ d)] } ∧
    exec (.frmUpdateDac a d) s =
      .next { s with selQ := true, events := s.events ++ [.frame ((0b0010#4 ++ a) ++ d)] } ∧
    exec (.frmWriteDac a d) s =
      .next { s with selQ := true, events := s.events ++ [.frame ((0b0011#4 ++ a) ++ d)] } ∧
    exec (.frmPower a d) s =
      .next { s with selQ := true, events := s.events ++ [.frame ((0b0100#4 ++ a) ++ d)] } ∧
    exec (.frmRefSetup a d) s =
      .next { s with selQ := true, events := s.events ++ [.frame ((0b0111#4 ++ a) ++ d)] }

/-- The same of the unimplemented and unnamed frames (R58): the block packs them and does nothing else. -/
def Obligations.ReservedFramesAreSentUnchanged : Prop :=
  ∀ (a : Nibble) (d : Word) (s : State),
    exec (.frmUnnamed0 a d) s =
      .next { s with selQ := true, events := s.events ++ [.frame ((0b0000#4 ++ a) ++ d)] } ∧
    exec (.frmLdacMask a d) s =
      .next { s with selQ := true, events := s.events ++ [.frame ((0b0101#4 ++ a) ++ d)] } ∧
    exec (.frmSwReset a d) s =
      .next { s with selQ := true, events := s.events ++ [.frame ((0b0110#4 ++ a) ++ d)] } ∧
    exec (.frmDaisyChain a d) s =
      .next { s with selQ := true, events := s.events ++ [.frame ((0b1000#4 ++ a) ++ d)] } ∧
    exec (.frmReadback a d) s =
      .next { s with selQ := true, events := s.events ++ [.frame ((0b1001#4 ++ a) ++ d)] } ∧
    exec (.frmWriteAllInput a d) s =
      .next { s with selQ := true, events := s.events ++ [.frame ((0b1010#4 ++ a) ++ d)] } ∧
    exec (.frmWriteAllDac a d) s =
      .next { s with selQ := true, events := s.events ++ [.frame ((0b1011#4 ++ a) ++ d)] } ∧
    exec (.frmUnnamedC a d) s =
      .next { s with selQ := true, events := s.events ++ [.frame ((0b1100#4 ++ a) ++ d)] } ∧
    exec (.frmUnnamedD a d) s =
      .next { s with selQ := true, events := s.events ++ [.frame ((0b1101#4 ++ a) ++ d)] } ∧
    exec (.frmUnnamedE a d) s =
      .next { s with selQ := true, events := s.events ++ [.frame ((0b1110#4 ++ a) ++ d)] } ∧
    exec (.frmUnnamedF a d) s =
      .next { s with selQ := true, events := s.events ++ [.frame ((0b1111#4 ++ a) ++ d)] }

/-- Sending a frame by WRAW is running the frame read back from its fields and then giving OK (R59, R64, R73). -/
def Obligations.WrawIsItsFrameWithAResult : Prop :=
  ∀ (cmd addr : Nibble) (data : Word) (s t : State),
    exec (decodeFrame ((cmd ++ addr) ++ data)) s = .next t →
      exec (.wraw cmd addr data) s = .next { t with results := t.results ++ [.ok] }

/-! ### All requests -/

/-- The block has no trap (R105, R116): every instruction, in every state, ends in a next state. -/
def Obligations.EveryInstructionCompletes : Prop :=
  ∀ (i : Instr) (s : State), ∃ t, exec i s = .next t

/-- Every request gives back exactly one result code (R12, R109); a frame row gives none (log entry 6). -/
def Obligations.EveryRequestGivesOneResult : Prop :=
  ∀ (i : Instr) (s t : State), exec i s = .next t →
    (isRequest i = true → ∃ r, t.results = s.results ++ [r]) ∧ (isRequest i = false → t.results = s.results)

/-- R62 with R56 and R110: ERR_OPCODE is the outcome exactly of an ill-formed instruction. -/
def Obligations.OpcodeErrorExactlyForAnIllFormedRequest : Prop :=
  ∀ (i : Instr) (s t : State), exec i s = .next t →
    (t.results = s.results ++ [.errOpcode] ↔ i.wellFormed = false)

/-- R113: a request that ends with an error code has given out no event and written no state. -/
def Obligations.AbortedRequestsLeaveNoTrace : Prop :=
  ∀ (i : Instr) (s t : State) (r : Result), exec i s = .next t → t.results = s.results ++ [r] → isAbort r = true →
    t = { s with results := s.results ++ [r] }

/-- R111: ERR_RANGE is the outcome exactly where a channel operand of the request is 16 or more. -/
def Obligations.RangeErrorExactlyForABadChannel : Prop :=
  ∀ (i : Instr) (s t : State), exec i s = .next t →
    (t.results = s.results ++ [.errRange] ↔ ∃ c ∈ channelOperands i, 16 ≤ c.toNat)

/-- R112: the truncation warning comes from a SETCH only, of a valid channel, exactly where RES = 12, the code is above
0x0FFF and verbose = 1, and the request has sent its frame. -/
def Obligations.TruncationWarningOnlyFromSetch : Prop :=
  ∀ (i : Instr) (s t : State), exec i s = .next t →
    (t.results = s.results ++ [.okWarnTrunc] ↔
      ∃ (ch : Channel) (code : Word) (imm : Bool), i = .setch ch code imm true ∧ ch.toNat < 16 ∧
        s.cfg.resolution = .res12 ∧ 0x0FFF < code.toNat) ∧
    (t.results = s.results ++ [.okWarnTrunc] → isAbort .okWarnTrunc = false ∧ ∃ f, t.events = s.events ++ [.frame f])

/-- ERR_REF_UNDEF is the host's: no step of the block gives it, and the codes 5 to 7 do not exist (R107, R109). -/
def Obligations.BlockNeverReportsAnUndefinedReference : Prop :=
  (∀ s t : State, step s = .next t → Result.errRefUndef ∈ t.results → Result.errRefUndef ∈ s.results) ∧
  ∀ r : Result, resultCode r ≤ 4#3

/-- The numbering of R109. -/
def Obligations.ResultCodesAreNumberedAsListed : Prop :=
  resultCode .ok = 0#3 ∧ resultCode .okWarnTrunc = 1#3 ∧ resultCode .errRange = 2#3 ∧
    resultCode .errRefUndef = 3#3 ∧ resultCode .errOpcode = 4#3

/-- R78 and R79: a code is truncated exactly where RES = 12 and it exceeds 0x0FFF, and the shaped code holds its low RES
bits in the payload's high bits. -/
def Obligations.ShapingKeepsTheLowResolutionBits : Prop :=
  ∀ code : Word,
    (truncated .res12 code = true ↔ 0x0FFF < code.toNat) ∧ truncated .res16 code = false ∧
    shape .res12 code = (code.extractLsb' 0 12 ++ 0b0000#4 : BitVec 16) ∧ shape .res16 code = code

/-- R38: the number of frames of each request, on success and on abort. -/
def Obligations.FramesPerRequest : Prop :=
  ∀ (i : Instr) (s t : State), exec i s = .next t → ∃ es, t.events = s.events ++ es ∧
    ((∃ r, t.results = s.results ++ [r] ∧ isAbort r = true) → es = []) ∧
    ((∀ r, t.results = s.results ++ [r] → isAbort r = false) →
      match i with
      | .wraw _ _ _ => (framesOf es).length = 1
      | .setch _ _ _ _ => (framesOf es).length = 1
      | .updch _ => (framesOf es).length = 1
      | .pwr _ _ => (framesOf es).length = 1
      | .pwrb list =>
        (framesOf es).length =
          (if ∃ e ∈ list, e.ch.toNat < 8 then 1 else 0) + (if ∃ e ∈ list, 8 ≤ e.ch.toNat then 1 else 0)
      | .setref _ => (framesOf es).length = 1
      | .ldac _ => framesOf es = []
      | _ => True)

/-- R57: the typed requests send the five implemented command codes only, and LDAC sends no frame. -/
def Obligations.TypedRequestsSendImplementedCommands : Prop :=
  (∀ (i : Instr) (s t : State), isTyped i = true → exec i s = .next t → ∃ es, t.events = s.events ++ es ∧
    ∀ f ∈ framesOf es, frameCommand f ∈ [0b0001#4, 0b0010#4, 0b0011#4, 0b0100#4, 0b0111#4]) ∧
  ∀ (delay : Delay) (s t : State), exec (.ldac delay) s = .next t → framesOf t.events = framesOf s.events

/-- R20 and R31: no instruction but PWR and PWRB writes SH. -/
def Obligations.OnlyPowerRequestsWriteTheShadow : Prop :=
  ∀ (i : Instr) (s t : State), exec i s = .next t → t.sh ≠ s.sh → isPower i = true

/-- R31 and R86: no instruction drives the reset line, and none but LDAC the latch line. -/
def Obligations.OnlyLdacDrivesTheLatchAndNoneTheResetLine : Prop :=
  ∀ (i : Instr) (s t : State), exec i s = .next t → ∃ es, t.events = s.events ++ es ∧
    t.rstQ = s.rstQ ∧ (∀ level, Event.line .rst level ∉ es) ∧
    ((∀ delay, i ≠ .ldac delay) → t.latQ = s.latQ ∧ ∀ level, Event.line .lat level ∉ es)

/-- R23: no instruction reads an earlier result or event, or what is presented behind it. Two states that agree on the
build parameters and on S get the same S, the same new results and the same new events. The fields of the output and of the port are the model's (log
entries 7 and 8). -/
def Obligations.EarlierOutputIsNotRead : Prop :=
  ∀ (i : Instr) (s s' t t' : State), s.cfg = s'.cfg → s.sh = s'.sh → s.selQ = s'.selQ → s.latQ = s'.latQ →
    s.rstQ = s'.rstQ → exec i s = .next t → exec i s' = .next t' →
    t.sh = t'.sh ∧ t.selQ = t'.selQ ∧ t.latQ = t'.latQ ∧ t.rstQ = t'.rstQ ∧
    ∃ rs es, t.results = s.results ++ rs ∧ t'.results = s'.results ++ rs ∧ t.events = s.events ++ es ∧
      t'.events = s'.events ++ es

/-! ### All steps -/

/-- R24: no step writes a build parameter. -/
def Obligations.StepKeepsTheBuildParameters : Prop :=
  ∀ s t : State, step s = .next t → t.cfg = s.cfg

/-- R43: the events of a step come behind all earlier ones, and so do the results. -/
def Obligations.StepAppendsToTheOutput : Prop :=
  ∀ s t : State, step s = .next t →
    ∃ rs es, t.results = s.results ++ rs ∧ t.events = s.events ++ es ∧ rs.length ≤ 1

/-- R131: a step adds one reset pulse where it takes a reset and none elsewhere. That a later reset keeps the events given out
before it is the model's (log entries 7 and 22). -/
def Obligations.EachResetEmitsOneResetPulse : Prop :=
  ∀ s t : State, step s = .next t →
    resetPulses t.events = resetPulses s.events + (if s.port.head? = some .reset then 1 else 0)

/-- R25, R33, R72: every step keeps the state of the block between requests: each pair of both shadow words is 0b00 or
PD_PATTERN, all three lines are high, each level register holds the level last driven on the wire, and on the wire every
low pulse of the select line holds exactly three bytes. -/
def Obligations.StepKeepsTheStateBetweenRequests : Prop :=
  ∀ s t : State, BetweenRequests s → step s = .next t → BetweenRequests t

/-- R32: the machine after reset is in that state. -/
def Obligations.ResetGivesTheStateBetweenRequests : Prop :=
  BetweenRequests State.reset

/-- R25, R33: so is every state a run reaches, of every build and whatever is presented when. What a run is follows log
entries 8 and 14. -/
def Obligations.ReachableStatesAreBetweenRequests : Prop :=
  ∀ s : State, Reachable s → BetweenRequests s

/-- R129: taking a reset clears both shadow words, gives out the six events in order, and leaves all lines high. That it gives
no result and keeps the build parameters, the history and what is presented behind it is read from R60, R120 and R132 (log
entry 22); the transport completes its events (log entry 9). -/
def Obligations.ResetClearsTheShadowAndPulsesTheResetLine : Prop :=
  ∀ (s : State) (rest : List Presented), s.port = .reset :: rest → s.stalled = false →
    step s =
      .next { s with
        port := rest
        sh := { w0 := 0x0000#16, w1 := 0x0000#16 }
        selQ := true
        latQ := true
        rstQ := true
        events := s.events ++
          [.line .sel true, .line .lat true, .line .rst true, .line .rst false, .waitMs s.cfg.resetPulseMs,
            .line .rst true] }

/-- R32: the values of the state after the reset sequence. -/
def Obligations.StateAfterReset : Prop :=
  State.reset.sh.w0 = 0x0000#16 ∧ State.reset.sh.w1 = 0x0000#16 ∧ State.reset.selQ = true ∧
    State.reset.latQ = true ∧ State.reset.rstQ = true

/-! ### The wire -/

/-- R68 and R34: a frame event is its command and address byte, its data high byte and its data low byte inside one low
pulse of the select line, after which SEL_Q is 1. -/
def Obligations.FrameExpandsToOneSelectPulse : Prop :=
  ∀ (cmd addr : Nibble) (data : Word) (s : State),
    (emit s (.frame ((cmd ++ addr) ++ data))).selQ = true ∧
    wireExpansion (.frame ((cmd ++ addr) ++ data)) =
      [.line .sel false, .byte (cmd ++ addr), .byte (data.extractLsb' 8 8), .byte (data.extractLsb' 0 8),
        .line .sel true]

/-- R35: the bits of a frame appear as f[23], f[22], …, f[0]. -/
def Obligations.FrameBitsAreSentMostSignificantFirst : Prop :=
  ∀ f : Frame, (frameBits f).length = 24 ∧ ∀ j < 24, (frameBits f)[j]? = some (f.getLsbD (23 - j))

/-- R123: the transport calls of each event, with the frame's bytes and line levels as R68 orders them. -/
def Obligations.EventsMapToTransportCalls : Prop :=
  ∀ (cfg : Config) (f : Frame) (id : LineId) (level : Bool) (us : Delay) (ms : Nat),
    transportCalls cfg (.frame f) =
      [.configureBus cfg.spiMode, .beginTransaction, .setLine .sel false, .transferByte (f.extractLsb' 16 8),
        .transferByte (f.extractLsb' 8 8), .transferByte (f.extractLsb' 0 8), .setLine .sel true, .endTransaction] ∧
    transportCalls cfg (.line id level) = [.setLine id level] ∧
    transportCalls cfg (.waitUs us) = [.delayUs us] ∧ transportCalls cfg (.waitMs ms) = [.delayMs ms]

/-- R61, and R17 and R48 for `updateChannels`: the document's calls and the requests they expand to, read back from what they
present. -/
def Obligations.DocumentCallsBecomeTheListedRequests : Prop :=
  (∀ channels, (driverRequest (.updateChannels channels)).map decode = some (.ok (.updch channels))) ∧
  (∀ ch code imm verbose, (driverRequest (.setChannel ch code imm verbose)).map decode =
    some (.ok (.setch ch code imm verbose))) ∧
  (driverRequest (.setReferenceInternal true)).map decode = some (.ok (.setref false)) ∧
  (driverRequest (.setReferenceInternal false)).map decode = some (.ok (.setref true)) ∧
  (driverRequest .setReferenceVoltage).map decode = some (.ok (.setref true)) ∧
  (∀ ch up, (driverRequest (.powerUpDown ch up)).map decode = some (.ok (.pwr ch up))) ∧
  (∀ entries : List PowerEntry,
    (driverRequest (.powerUpDownBatch (entries.map PowerEntry.ch) (entries.map PowerEntry.up))).map decode =
      some (.ok (.pwrb entries))) ∧
  (∀ delay, (driverRequest (.updateDac delay)).map decode = some (.ok (.ldac delay))) ∧
  (∀ cmd addr data, (driverRequest (.writeData cmd addr data)).map decode = some (.ok (.wraw cmd addr data))) ∧
  (∀ ups : Vector Bool 16, (driverRequest (.resynchronise ups)).map decode = some (.ok (.pwrb (resyncEntries ups)))) ∧
  driverRequest .construct = some .reset
end

