-- ==== Sys2Proof/Laws/Decode.lean ====
section
/-! SUPPORT. Reading back what was laid out: fields, flags, lists. -/

namespace Sys2Proof

/-- A field is its least significant bit behind the others. -/
theorem concat_extractLsb' (n : Nat) (v : BitVec (n + 1)) : (v.extractLsb' 1 n).concat (v.getLsbD 0) = v := by
  apply BitVec.eq_of_getLsbD_eq
  intro i hi
  rw [BitVec.getLsbD_concat]
  by_cases h : i = 0
  · simp [h]
  · have : 1 + (i - 1) = i := by omega
    simp [h, BitVec.getLsbD_extractLsb', this]
    omega

/-- A field read from where it was laid out, and the bits behind it. -/
@[simp] theorem takeField_fieldBits (n : Nat) (v : BitVec n) (rest : List Bool) :
    takeField n (fieldBits n v ++ rest) = some (v, rest) := by
  induction n with
  | zero => simp [takeField, fieldBits, BitVec.of_length_zero]
  | succ n ih =>
    simp only [takeField, fieldBits, List.cons_append, ih]
    rw [concat_extractLsb']

@[simp] theorem takeFlag_cons (b : Bool) (rest : List Bool) : takeFlag (b :: rest) = some (b, rest) := rfl

@[simp] theorem takeEntry_entryBits (e : PowerEntry) (rest : List Bool) :
    takeEntry (entryBits e ++ rest) = some (e, rest) := by
  simp [takeEntry, entryBits]

theorem length_fieldBits (n : Nat) (v : BitVec n) : (fieldBits n v).length = n := by
  induction n with
  | zero => rfl
  | succ n ih => simp [fieldBits, ih]

theorem length_le_listBits {α : Type} (enc : α → List Bool) (xs : List α) :
    xs.length < (listBits enc xs).length := by
  induction xs with
  | nil => simp [listBits]
  | cons x xs ih => simp [listBits]; omega

/-- A list read from where it was laid out, given an entry reader that reads entries back and enough fuel. -/
theorem takeList_listBits {α : Type} (enc : α → List Bool) (take : List Bool → Option (α × List Bool))
    (h : ∀ x rest, take (enc x ++ rest) = some (x, rest)) (xs : List α) (rest : List Bool) (fuel : Nat)
    (hf : xs.length < fuel) : takeList take fuel (listBits enc xs ++ rest) = some (xs, rest) := by
  induction xs generalizing fuel with
  | nil =>
    obtain ⟨f, rfl⟩ : ∃ f, fuel = f + 1 := ⟨fuel - 1, by omega⟩
    simp [takeList, listBits]
  | cons x xs ih =>
    obtain ⟨f, rfl⟩ : ∃ f, fuel = f + 1 := ⟨fuel - 1, by simp at hf; omega⟩
    simp [takeList, listBits, h, ih f (by simpa using hf)]

/-- The fields of a packed frame (R59). -/
@[simp] theorem frameCommand_pack (c a : Nibble) (d : Word) : frameCommand (pack c a d) = c := by
  apply BitVec.eq_of_getLsbD_eq
  intro i hi
  simp only [frameCommand, pack, BitVec.getLsbD_extractLsb', BitVec.getLsbD_append]
  simp [hi, show ¬ 20 + i < 16 by omega, show ¬ 20 + i - 16 < 4 by omega, show 20 + i - 16 - 4 = i by omega]

@[simp] theorem frameAddress_pack (c a : Nibble) (d : Word) : frameAddress (pack c a d) = a := by
  apply BitVec.eq_of_getLsbD_eq
  intro i hi
  simp only [frameAddress, pack, BitVec.getLsbD_extractLsb', BitVec.getLsbD_append]
  simp [hi]

@[simp] theorem frameData_pack (c a : Nibble) (d : Word) : frameData (pack c a d) = d := by
  apply BitVec.eq_of_getLsbD_eq
  intro i hi
  simp only [frameData, pack, BitVec.getLsbD_extractLsb', BitVec.getLsbD_append]
  simp [hi]

/-- A frame is its fields, packed (R51). -/
theorem pack_fields (f : Frame) : pack (frameCommand f) (frameAddress f) (frameData f) = f := by
  apply BitVec.eq_of_getLsbD_eq
  intro i hi
  simp only [frameCommand, frameAddress, frameData, pack, BitVec.getLsbD_extractLsb', BitVec.getLsbD_append]
  by_cases h1 : i < 16
  · simp [h1]
  · by_cases h2 : i - 16 < 4
    · simp [h1, h2, show 16 + (i - 16) = i by omega]
    · simp [h1, h2, show 20 + (i - 16 - 4) = i by omega]
      omega

end Sys2Proof
end

