-- ==== Sys2Proof/Laws/State.lean ====
section
/-! SUPPORT. What each update of the state leaves in each field: one lemma per field per update, so that no later proof
unfolds an update. -/

namespace Sys2Proof.Machine

section Result
variable (r : Result) (s : State)

@[simp] theorem giveResult_cfg : (giveResult r s).cfg = s.cfg := rfl
@[simp] theorem giveResult_sh : (giveResult r s).sh = s.sh := rfl
@[simp] theorem giveResult_selQ : (giveResult r s).selQ = s.selQ := rfl
@[simp] theorem giveResult_latQ : (giveResult r s).latQ = s.latQ := rfl
@[simp] theorem giveResult_rstQ : (giveResult r s).rstQ = s.rstQ := rfl
@[simp] theorem giveResult_results : (giveResult r s).results = s.results ++ [r] := rfl
@[simp] theorem giveResult_events : (giveResult r s).events = s.events := rfl
@[simp] theorem giveResult_port : (giveResult r s).port = s.port := rfl
@[simp] theorem giveResult_stalled : (giveResult r s).stalled = s.stalled := rfl
end Result

section Stall
variable (s : State)

@[simp] theorem stallTransport_cfg : (stallTransport s).cfg = s.cfg := rfl
@[simp] theorem stallTransport_sh : (stallTransport s).sh = s.sh := rfl
@[simp] theorem stallTransport_selQ : (stallTransport s).selQ = s.selQ := rfl
@[simp] theorem stallTransport_latQ : (stallTransport s).latQ = s.latQ := rfl
@[simp] theorem stallTransport_rstQ : (stallTransport s).rstQ = s.rstQ := rfl
@[simp] theorem stallTransport_results : (stallTransport s).results = s.results := rfl
@[simp] theorem stallTransport_events : (stallTransport s).events = s.events := rfl
@[simp] theorem stallTransport_port : (stallTransport s).port = s.port := rfl
@[simp] theorem stallTransport_stalled : (stallTransport s).stalled = true := rfl
end Stall

section Emit
variable (s : State)

/-- A frame: the select line is driven low and then high. -/
@[simp] theorem emit_frame (f : Frame) :
    emit s (.frame f) = { s with selQ := true, events := s.events ++ [.frame f] } := rfl
@[simp] theorem emit_sel (l : Bool) :
    emit s (.line .sel l) = { s with selQ := l, events := s.events ++ [.line .sel l] } := rfl
@[simp] theorem emit_lat (l : Bool) :
    emit s (.line .lat l) = { s with latQ := l, events := s.events ++ [.line .lat l] } := rfl
@[simp] theorem emit_rst (l : Bool) :
    emit s (.line .rst l) = { s with rstQ := l, events := s.events ++ [.line .rst l] } := rfl
@[simp] theorem emit_waitUs (n : Delay) : emit s (.waitUs n) = { s with events := s.events ++ [.waitUs n] } := rfl
@[simp] theorem emit_waitMs (n : Nat) : emit s (.waitMs n) = { s with events := s.events ++ [.waitMs n] } := rfl
@[simp] theorem emitAll_nil : emitAll s [] = s := rfl
@[simp] theorem emitAll_cons (e : Event) (es : List Event) : emitAll s (e :: es) = emitAll (emit s e) es := rfl
@[simp] theorem emitFrame_eq (c a : Nibble) (d : Word) :
    emitFrame c a d s = { s with selQ := true, events := s.events ++ [.frame (pack c a d)] } := rfl
end Emit

section Shadow
variable (sh : Shadow) (v : Word)

@[simp] theorem readShadow_bank0 : readShadow sh .bank0 = sh.w0 := rfl
@[simp] theorem readShadow_bank1 : readShadow sh .bank1 = sh.w1 := rfl
@[simp] theorem writeShadow_bank0 : writeShadow sh .bank0 v = { sh with w0 := v } := rfl
@[simp] theorem writeShadow_bank1 : writeShadow sh .bank1 v = { sh with w1 := v } := rfl
end Shadow

section Touch
variable (k : Working) (b : Bank)

@[simp] theorem touch_w : (touch k b).w = k.w := by cases b <;> rfl
@[simp] theorem touch_bank0_t0 : (touch k .bank0).t0 = true := rfl
@[simp] theorem touch_bank0_t1 : (touch k .bank0).t1 = k.t1 := rfl
@[simp] theorem touch_bank1_t0 : (touch k .bank1).t0 = k.t0 := rfl
@[simp] theorem touch_bank1_t1 : (touch k .bank1).t1 = true := rfl
end Touch

end Sys2Proof.Machine
end

