-- ==== Sys2Proof/Laws/Ops.lean ====
section
/-! SUPPORT. What each shared operation can do, once. -/

namespace Sys2Proof.Machine

/-! ### Pairs -/

theorem getLsbD_writePair (w : Word) (p : Nat) (v : BitVec 2) (j : Nat) (hp : p + 1 < 16) :
    (writePair w p v).getLsbD j = if j = p then v.getLsbD 0 else if j = p + 1 then v.getLsbD 1 else w.getLsbD j := by
  have hmask : ∀ i, (0b11#16).getLsbD i = decide (i < 2) := by
    intro i
    by_cases hi : i < 16
    · interval_cases i <;> rfl
    · rw [BitVec.getLsbD_of_ge _ _ (by omega)]; simp; omega
  by_cases hj : j < 16
  · simp only [writePair, BitVec.getLsbD_or, BitVec.getLsbD_and, BitVec.getLsbD_not, BitVec.getLsbD_shiftLeft, hj,
      BitVec.getLsbD_setWidth, hmask, decide_true, Bool.true_and]
    by_cases h0 : j = p
    · subst h0; simp
    · by_cases h1 : j = p + 1
      · subst h1; simp
      · by_cases hlt : j < p
        · simp [h0, h1, hlt]
        · have hv : v.getLsbD (j - p) = false := BitVec.getLsbD_of_ge _ _ (by omega)
          simp [h0, h1, hlt, hv, show ¬ j - p < 2 by omega]
  · rw [BitVec.getLsbD_of_ge _ _ (by omega), BitVec.getLsbD_of_ge w _ (by omega)]
    simp [show j ≠ p by omega, show j ≠ p + 1 by omega]

/-- A written pair reads back (R94). -/
@[simp] theorem readPair_writePair_same (w : Word) (k : Nat) (v : BitVec 2) (hk : k < 8) :
    readPair (writePair w (2 * k) v) (2 * k) = v := by
  apply BitVec.eq_of_getLsbD_eq
  intro i hi
  simp only [readPair, BitVec.getLsbD_extractLsb', hi, decide_true, Bool.true_and,
    getLsbD_writePair _ _ _ _ (show 2 * k + 1 < 16 by omega)]
  interval_cases i <;> simp

/-- No other pair changes (R94). -/
theorem readPair_writePair_other (w : Word) (j k : Nat) (v : BitVec 2) (hk : k < 8) (hjk : j ≠ k) :
    readPair (writePair w (2 * k) v) (2 * j) = readPair w (2 * j) := by
  apply BitVec.eq_of_getLsbD_eq
  intro i hi
  simp only [readPair, BitVec.getLsbD_extractLsb', hi, decide_true, Bool.true_and,
    getLsbD_writePair _ _ _ _ (show 2 * k + 1 < 16 by omega)]
  rw [if_neg (by omega), if_neg (by omega)]

/-- A word is its eight pairs (R21). -/
theorem word_ext_pairs {v w : Word} (h : ∀ k < 8, readPair v (2 * k) = readPair w (2 * k)) : v = w := by
  apply BitVec.eq_of_getLsbD_eq
  intro i hi
  have hk := congrArg (fun x => x.getLsbD (i % 2)) (h (i / 2) (by omega))
  have h2 : i % 2 < 2 := Nat.mod_lt _ (by omega)
  have hsum : 2 * (i / 2) + i % 2 = i := Nat.div_add_mod i 2
  simpa [readPair, BitVec.getLsbD_extractLsb', h2, hsum] using hk

/-! ### Channels -/

theorem bankOf_of_lt {ch : Channel} (h : ch.toNat < 8) : bankOf ch = .bank0 := by
  have : ch.getLsbD 3 = false := by
    rw [BitVec.getLsbD, Nat.testBit_eq_decide_div_mod_eq]; simp; omega
  simp only [bankOf, this]; rfl

theorem bankOf_of_ge {ch : Channel} (h : 8 ≤ ch.toNat) (h' : ch.toNat < 16) : bankOf ch = .bank1 := by
  have : ch.getLsbD 3 = true := by
    rw [BitVec.getLsbD, Nat.testBit_eq_decide_div_mod_eq]; simp; omega
  simp only [bankOf, this]; rfl

theorem posOf_eq (ch : Channel) : posOf ch = 2 * (ch.toNat % 8) := by
  simp [posOf, BitVec.extractLsb'_toNat]

@[simp] theorem validChannel_iff (ch : Channel) : validChannel ch = true ↔ ch.toNat < 16 := by
  simp [validChannel]

/-! ### Emission -/

/-- Emitting a list appends it and touches nothing but the level registers. -/
theorem emitAll_spec (s : State) (es : List Event) : ∃ sel lat rst,
    emitAll s es = { s with selQ := sel, latQ := lat, rstQ := rst, events := s.events ++ es } := by
  induction es generalizing s with
  | nil => exact ⟨s.selQ, s.latQ, s.rstQ, by simp⟩
  | cons e es ih =>
    obtain ⟨sel, lat, rst, h⟩ := ih (emit s e)
    refine ⟨sel, lat, rst, ?_⟩
    rw [emitAll_cons, h]
    cases e with
    | line id l => cases id <;> simp
    | frame f => simp
    | waitUs n => simp
    | waitMs n => simp

/-- Frames leave the select line high and the other lines as they are. -/
theorem emitAll_frames (s : State) (fs : List Frame) :
    emitAll s (fs.map .frame) =
      { s with selQ := if fs = [] then s.selQ else true, events := s.events ++ fs.map .frame } := by
  induction fs generalizing s with
  | nil => simp
  | cons f fs ih => simp [ih]

/-! ### Power -/

/-- Applying one entry, by its bank (R94). -/
theorem applyEntry_bank0 (cfg : Config) (k : Working) (e : PowerEntry) (h : e.ch.toNat < 8) :
    applyEntry cfg k e =
      { k with w := { k.w with w0 := writePair k.w.w0 (2 * e.ch.toNat) (pairValue cfg e.up) }, t0 := true } := by
  simp [applyEntry, bankOf_of_lt h, posOf_eq, touch, Nat.mod_eq_of_lt h]

theorem applyEntry_bank1 (cfg : Config) (k : Working) (e : PowerEntry) (h : 8 ≤ e.ch.toNat) (h' : e.ch.toNat < 16) :
    applyEntry cfg k e =
      { k with w := { k.w with w1 := writePair k.w.w1 (2 * (e.ch.toNat - 8)) (pairValue cfg e.up) }, t1 := true } := by
  have hm : e.ch.toNat % 8 = e.ch.toNat - 8 := by omega
  simp [applyEntry, bankOf_of_ge h h', posOf_eq, touch, hm]

theorem anyInvalid_iff (list : List PowerEntry) : anyInvalid list = true ↔ ∃ e ∈ list, 16 ≤ e.ch.toNat := by
  simp [anyInvalid, validChannel]

/-- What a power request can do (R95): abort where an entry is out of range, and else commit and send. -/
theorem powerRequest_spec (list : List PowerEntry) (s : State) :
    powerRequest list s =
      if anyInvalid list = true then .next { s with results := s.results ++ [.errRange] }
      else .next (giveResult .ok
        (emitAll { s with sh := (applyEntries s.cfg s.sh list).w } (powerFrames (applyEntries s.cfg s.sh list)))) := rfl

/-! ### The mask -/

/-- UPDCH's error flag (R84): set exactly where an entry is out of range. -/
theorem maskLoop_e (list : List Channel) : (maskLoop list).e = true ↔ ∃ c ∈ list, 16 ≤ c.toNat := by
  suffices h : ∀ acc : MaskAcc, (list.foldl maskStep acc).e = true ↔ acc.e = true ∨ ∃ c ∈ list, 16 ≤ c.toNat by
    simpa [maskLoop] using h { m := 0x0000#16, e := false }
  induction list with
  | nil => simp
  | cons c cs ih =>
    intro acc
    rw [List.foldl_cons, ih]
    by_cases hc : c.toNat < 16
    · simp [maskStep, hc, show ¬ 16 ≤ c.toNat by omega]
    · simp [maskStep, hc, show 16 ≤ c.toNat by omega]

/-! ### The transport -/

/-- What the transport makes of a next state: nothing, or the stall. -/
theorem withTransport_next (s t : State) :
    withTransport s (.next t) =
      if s.stalled = true ∧ s.events.length < t.events.length then .fault .transportStalled else .next t := by
  simp [withTransport]

theorem withTransport_running (s : State) (h : s.stalled = false) (o : Host.Outcome State Fault Refusal) :
    withTransport s o = o := by
  cases o <;> simp [withTransport, h]

/-- What ends behind the transport ended before it. -/
theorem eq_of_withTransport_next {s t : State} {o : Host.Outcome State Fault Refusal}
    (h : withTransport s o = .next t) : o = .next t := by
  cases o with
  | next u => rw [withTransport_next] at h; split at h <;> simp_all
  | fault f => simp [withTransport] at h
  | refused r => simp [withTransport] at h

/-- The reset sequence (R129). -/
@[simp] theorem performReset_eq (s : State) :
    performReset s =
      { s with
        sh := { w0 := 0x0000#16, w1 := 0x0000#16 }
        selQ := true
        latQ := true
        rstQ := true
        events := s.events ++ resetEvents s.cfg } := by
  simp [performReset, resetEvents]

end Sys2Proof.Machine
end

