-- ==== Sys2Proof/Laws/Exec.lean ====
section
/-! SUPPORT. What an instruction and a step can do, once: the statements about all instructions and all steps are read off
these. -/

namespace Sys2Proof.Machine

theorem powerFrames_eq (k : Working) : ∃ fs : List Frame, powerFrames k = fs.map .frame := by
  refine ⟨(if k.t0 then [pack 0b0100#4 0b0000#4 k.w.w0] else []) ++
    (if k.t1 then [pack 0b0100#4 0b1000#4 k.w.w1] else []), ?_⟩
  cases h0 : k.t0 <;> cases h1 : k.t1 <;> simp [powerFrames, powerFrame, h0, h1, bankAddr]

/-- An outcome an instruction can have: a next state; the build parameters, the port and the transport stay; only a power
request writes SH; the events are frames, or LDAC's three; a request gives one result, with no event and no write where it
is an abort, and a frame row none. -/
def Effect (i : Instr) (s : State) (o : Host.Outcome State Fault Refusal) : Prop :=
  ∃ sh es rs, o = .next { emitAll { s with sh := sh } es with results := s.results ++ rs } ∧
    (sh ≠ s.sh → isPower i = true) ∧
    ((∃ fs : List Frame, es = fs.map .frame) ∨ ∃ delay, i = .ldac delay ∧ es = ldacEvents delay) ∧
    (isRequest i = true → ∃ r, rs = [r] ∧ (isAbort r = true → sh = s.sh ∧ es = [])) ∧
    (isRequest i = false → rs = [])

theorem effect_abort (i : Instr) (s : State) (r : Result) (hi : isRequest i = true) : Effect i s (abort r s) :=
  ⟨s.sh, [], [r], by simp [abort, giveResult], by simp, .inl ⟨[], rfl⟩, by simp, by simp [hi]⟩

theorem effect_frame (i : Instr) (s : State) (r : Result) (f : Frame) (hi : isRequest i = true)
    (hr : isAbort r = false) : Effect i s (complete r (emit s (.frame f))) :=
  ⟨s.sh, [.frame f], [r], by simp [complete, giveResult], by simp, .inl ⟨[f], rfl⟩, by simp [hr], by simp [hi]⟩

theorem effect_bareFrame (i : Instr) (s : State) (f : Frame) (hi : isRequest i = false) :
    Effect i s (.next (emit s (.frame f))) :=
  ⟨s.sh, [.frame f], [], by simp, by simp, .inl ⟨[f], rfl⟩, by simp [hi], by simp⟩

theorem effect_power (i : Instr) (s : State) (list : List PowerEntry) (hi : isRequest i = true)
    (hp : isPower i = true) : Effect i s (powerRequest list s) := by
  rw [powerRequest_spec]
  split
  · exact effect_abort i s .errRange hi
  · obtain ⟨sel, lat, rst, he⟩ := emitAll_spec { s with sh := (applyEntries s.cfg s.sh list).w }
      (powerFrames (applyEntries s.cfg s.sh list))
    exact ⟨_, _, [.ok], by rw [giveResult, he], fun _ => hp, .inl (powerFrames_eq _), by simp [isAbort], by simp [hi]⟩

theorem effect_ldac (delay : Delay) (s : State) : Effect (.ldac delay) s (execLdac delay s) := by
  obtain ⟨sel, lat, rst, he⟩ := emitAll_spec s (ldacEvents delay)
  exact ⟨s.sh, ldacEvents delay, [.ok], by simp [execLdac, complete, giveResult, he], by simp, .inr ⟨_, rfl, rfl⟩,
    by simp [isAbort], by simp [isRequest, frameFields]⟩

/-- What every instruction does in every state. -/
theorem exec_spec (i : Instr) (s : State) : Effect i s (exec i s) := by
  cases i with
  | wraw c a d => exact effect_frame _ s .ok _ rfl rfl
  | setch ch code imm v =>
    have hr : isAbort (setchResult s.cfg.resolution code v) = false := by unfold setchResult; split <;> rfl
    simp only [exec, execSetch]
    split
    · exact effect_frame _ s _ _ rfl hr
    · exact effect_abort _ s .errRange rfl
  | updch list =>
    simp only [exec, execUpdch]
    split
    · exact effect_abort _ s .errRange rfl
    · exact effect_frame _ s .ok _ rfl rfl
  | pwr ch up => exact effect_power _ s _ rfl rfl
  | pwrb list => exact effect_power _ s _ rfl rfl
  | setref ext => exact effect_frame _ s .ok _ rfl rfl
  | ldac delay => exact effect_ldac delay s
  | illegalOp op => exact effect_abort _ s _ rfl
  | frmUnnamed0 a d => exact effect_bareFrame _ s _ rfl
  | frmWriteInput a d => exact effect_bareFrame _ s _ rfl
  | frmUpdateDac a d => exact effect_bareFrame _ s _ rfl
  | frmWriteDac a d => exact effect_bareFrame _ s _ rfl
  | frmPower a d => exact effect_bareFrame _ s _ rfl
  | frmLdacMask a d => exact effect_bareFrame _ s _ rfl
  | frmSwReset a d => exact effect_bareFrame _ s _ rfl
  | frmRefSetup a d => exact effect_bareFrame _ s _ rfl
  | frmDaisyChain a d => exact effect_bareFrame _ s _ rfl
  | frmReadback a d => exact effect_bareFrame _ s _ rfl
  | frmWriteAllInput a d => exact effect_bareFrame _ s _ rfl
  | frmWriteAllDac a d => exact effect_bareFrame _ s _ rfl
  | frmUnnamedC a d => exact effect_bareFrame _ s _ rfl
  | frmUnnamedD a d => exact effect_bareFrame _ s _ rfl
  | frmUnnamedE a d => exact effect_bareFrame _ s _ rfl
  | frmUnnamedF a d => exact effect_bareFrame _ s _ rfl

/-- What a step that ends can have done: stayed idle, taken a reset or a stall, or run an instruction. -/
theorem step_cases {s t : State} (h : step s = .next t) :
    (s.port = [] ∧ t = s) ∨
    (∃ rest, s.port = .reset :: rest ∧ s.stalled = false ∧ t = performReset { s with port := rest }) ∨
    (∃ rest, s.port = .stall :: rest ∧ t = stallTransport { s with port := rest }) ∨
    (∃ p rest i, s.port = p :: rest ∧ decode p = .ok i ∧ exec i { s with port := rest } = .next t ∧
      (s.stalled = true → ¬ s.events.length < t.events.length)) := by
  unfold step at h
  split at h
  · rename_i hp
    exact .inl ⟨hp, by simpa using h.symm⟩
  · rename_i rest hp
    rw [withTransport_next] at h
    split at h
    · simp at h
    · rename_i hs
      refine .inr (.inl ⟨rest, hp, ?_, by simpa using h.symm⟩)
      simpa [resetEvents] using hs
  · rename_i rest hp
    exact .inr (.inr (.inl ⟨rest, hp, by simpa using h.symm⟩))
  · rename_i p rest _ _ hp
    split at h
    · rename_i i hd
      have ho := eq_of_withTransport_next h
      refine .inr (.inr (.inr ⟨p, rest, i, hp, hd, ho, fun hs hl => ?_⟩))
      rw [ho, withTransport_next, if_pos ⟨hs, hl⟩] at h
      simp at h
    · simp at h

end Sys2Proof.Machine
end

