-- ==== Sys2Proof/Laws/PerInstr.lean ====
section
/-! SUPPORT. Per instruction: what `encode` presents stands in the row of spec/opcode_table.json that is the
constructor's. -/

namespace Sys2Proof.Laws.OpcodeRow

/-- A request's bits begin with its op value and that op is legal exactly where the request is well-formed (R48, R56, R62); a
frame has its command code in bits 23:20 (R51, R52). -/
def Statement (i : Instr) : Prop :=
  i.accepted = true →
    match encode i with
    | .request bits => ∃ op rest, bits = fieldBits 4 op ++ rest ∧ Machine.requestOp i = some op ∧
        (legalOp op = true ↔ i.wellFormed = true)
    | .frame f => ∃ c a d, frameFields i = some (c, a, d) ∧ frameCommand f = c
    | .reset => False
    | .stall => False

theorem wraw (cmd : Nibble) (addr : Nibble) (data : Word) : Statement (.wraw cmd addr data) := fun _ =>
  ⟨_, _, rfl, rfl, by simp [legalOp, Instr.wellFormed]⟩

theorem setch (ch : Channel) (code : Word) (imm : Bool) (verbose : Bool) : Statement (.setch ch code imm verbose) := fun _ =>
  ⟨_, _, rfl, rfl, by simp [legalOp, Instr.wellFormed]⟩

theorem updch (list : List Channel) : Statement (.updch list) := fun _ =>
  ⟨_, _, rfl, rfl, by simp [legalOp, Instr.wellFormed]⟩

theorem pwr (ch : Channel) (up : Bool) : Statement (.pwr ch up) := fun _ =>
  ⟨_, _, rfl, rfl, by simp [legalOp, Instr.wellFormed]⟩

theorem pwrb (list : List PowerEntry) : Statement (.pwrb list) := fun _ =>
  ⟨_, _, rfl, rfl, by simp [legalOp, Instr.wellFormed]⟩

theorem setref (ext : Bool) : Statement (.setref ext) := fun _ =>
  ⟨_, _, rfl, rfl, by simp [legalOp, Instr.wellFormed]⟩

theorem ldac (delay : Delay) : Statement (.ldac delay) := fun _ =>
  ⟨_, _, rfl, rfl, by simp [legalOp, Instr.wellFormed]⟩

theorem illegalOp (op : Nibble) : Statement (.illegalOp op) := fun h =>
  ⟨op, [], by simp, rfl, by simp_all [Instr.accepted, Instr.wellFormed]⟩

theorem frmUnnamed0 (addr : Nibble) (data : Word) : Statement (.frmUnnamed0 addr data) := fun _ =>
  ⟨_, _, _, rfl, frameCommand_pack _ _ _⟩

theorem frmWriteInput (addr : Nibble) (data : Word) : Statement (.frmWriteInput addr data) := fun _ =>
  ⟨_, _, _, rfl, frameCommand_pack _ _ _⟩

theorem frmUpdateDac (addr : Nibble) (data : Word) : Statement (.frmUpdateDac addr data) := fun _ =>
  ⟨_, _, _, rfl, frameCommand_pack _ _ _⟩

theorem frmWriteDac (addr : Nibble) (data : Word) : Statement (.frmWriteDac addr data) := fun _ =>
  ⟨_, _, _, rfl, frameCommand_pack _ _ _⟩

theorem frmPower (addr : Nibble) (data : Word) : Statement (.frmPower addr data) := fun _ =>
  ⟨_, _, _, rfl, frameCommand_pack _ _ _⟩

theorem frmLdacMask (addr : Nibble) (data : Word) : Statement (.frmLdacMask addr data) := fun _ =>
  ⟨_, _, _, rfl, frameCommand_pack _ _ _⟩

theorem frmSwReset (addr : Nibble) (data : Word) : Statement (.frmSwReset addr data) := fun _ =>
  ⟨_, _, _, rfl, frameCommand_pack _ _ _⟩

theorem frmRefSetup (addr : Nibble) (data : Word) : Statement (.frmRefSetup addr data) := fun _ =>
  ⟨_, _, _, rfl, frameCommand_pack _ _ _⟩

theorem frmDaisyChain (addr : Nibble) (data : Word) : Statement (.frmDaisyChain addr data) := fun _ =>
  ⟨_, _, _, rfl, frameCommand_pack _ _ _⟩

theorem frmReadback (addr : Nibble) (data : Word) : Statement (.frmReadback addr data) := fun _ =>
  ⟨_, _, _, rfl, frameCommand_pack _ _ _⟩

theorem frmWriteAllInput (addr : Nibble) (data : Word) : Statement (.frmWriteAllInput addr data) := fun _ =>
  ⟨_, _, _, rfl, frameCommand_pack _ _ _⟩

theorem frmWriteAllDac (addr : Nibble) (data : Word) : Statement (.frmWriteAllDac addr data) := fun _ =>
  ⟨_, _, _, rfl, frameCommand_pack _ _ _⟩

theorem frmUnnamedC (addr : Nibble) (data : Word) : Statement (.frmUnnamedC addr data) := fun _ =>
  ⟨_, _, _, rfl, frameCommand_pack _ _ _⟩

theorem frmUnnamedD (addr : Nibble) (data : Word) : Statement (.frmUnnamedD addr data) := fun _ =>
  ⟨_, _, _, rfl, frameCommand_pack _ _ _⟩

theorem frmUnnamedE (addr : Nibble) (data : Word) : Statement (.frmUnnamedE addr data) := fun _ =>
  ⟨_, _, _, rfl, frameCommand_pack _ _ _⟩

theorem frmUnnamedF (addr : Nibble) (data : Word) : Statement (.frmUnnamedF addr data) := fun _ =>
  ⟨_, _, _, rfl, frameCommand_pack _ _ _⟩

end Sys2Proof.Laws.OpcodeRow
end

