-- ==== Sys2Proof/Machine/Assembler.lean ====
section
/-! DEFINITION. The text syntax of requests (spec/30_encoding.md R60, D2), one listing line at a time. -/

namespace Sys2Proof.Machine

/-- The tokens of a listing line. -/
inductive Token where
  | name (cs : List Char)
  | number (n : Nat)
  | comma
  | leftBrace
  | rightBrace
  | leftParen
  | rightParen
deriving DecidableEq, Repr

/-- A digit's value, where it is one of the base. -/
def digitValue (base : Nat) (c : Char) : Option Nat :=
  let n := c.toNat
  let v :=
    if 48 ≤ n ∧ n ≤ 57 then n - 48
    else if 97 ≤ n ∧ n ≤ 102 then n - 87
    else if 65 ≤ n ∧ n ≤ 70 then n - 55
    else base
  if v < base then some v else none

/-- Digits of a base, most significant first. -/
def digitsValue (base : Nat) : Nat → List Char → Option Nat
  | acc, [] => some acc
  | acc, c :: cs =>
    match digitValue base c with
    | some v => digitsValue base (acc * base + v) cs
    | none => none

/-- Decimal, or hexadecimal with `0x`, or binary with `0b` (R60). Leading zeros and hexadecimal digits of either case are
read: DESIGN CHOICE (log entry 21). -/
def numberValue : List Char → Option Nat
  | '0' :: 'x' :: c :: cs => digitsValue 16 0 (c :: cs)
  | '0' :: 'b' :: c :: cs => digitsValue 2 0 (c :: cs)
  | c :: cs => digitsValue 10 0 (c :: cs)
  | [] => none

/-- A word is a number where it begins with a digit and a name elsewhere. -/
def wordToken (cs : List Char) : Option Token :=
  match cs with
  | [] => none
  | c :: _ => if c.isDigit then (numberValue cs).map .number else some (.name cs)

/-- A mark of one character; white space is none. -/
def markToken (c : Char) : Option (List Token) :=
  match c.toNat with
  | 44 => some [.comma]
  | 123 => some [.leftBrace]
  | 125 => some [.rightBrace]
  | 40 => some [.leftParen]
  | 41 => some [.rightParen]
  | 32 => some []
  | 9 => some []
  | _ => none

/-- The word read so far (last character first), if any, before the tokens behind it. -/
def closeWord (word : List Char) (rest : Option (List Token)) : Option (List Token) :=
  match word with
  | [] => rest
  | c :: cs => do
    let t ← wordToken (c :: cs).reverse
    let ts ← rest
    some (t :: ts)

/-- A line's tokens; `;` starts a comment (R60). -/
def lexLine : (word : List Char) → List Char → Option (List Token)
  | word, [] => closeWord word (some [])
  | word, c :: cs =>
    if c = ';' then closeWord word (some [])
    else if c.isAlphanum then lexLine (c :: word) cs
    else
      match markToken c with
      | none => none
      | some ts => closeWord word ((lexLine [] cs).map (ts ++ ·))

/-- A number that fits a field's width (R62). -/
def fieldValue (n v : Nat) : Option (BitVec n) :=
  if v < 2 ^ n then some (BitVec.ofNat n v) else none

/-- A flag, written 0 or 1 (R60). Any number spelling of these two values is a flag, `0b1`, `0x0` and `01` among them: DESIGN
CHOICE, R60 does not say how the 0 or 1 of a flag may be spelt (log entry 21). -/
def flagValue : Nat → Option Bool
  | 0 => some false
  | 1 => some true
  | _ => none

/-- Channels up to the closing brace, at least one. -/
def channelTokens : List Token → Option (List Channel)
  | [.number c, .rightBrace] => (fieldValue 8 c).map ([·])
  | .number c :: .comma :: rest => do
    let ch ← fieldValue 8 c
    let chs ← channelTokens rest
    some (ch :: chs)
  | _ => none

/-- A PWRB entry's two numbers. -/
def entryValue (c u : Nat) : Option PowerEntry := do
  let ch ← fieldValue 8 c
  let up ← flagValue u
  some { ch := ch, up := up }

/-- Entries up to the closing brace, at least one. -/
def entryTokens : List Token → Option (List PowerEntry)
  | [.leftParen, .number c, .comma, .number u, .rightParen, .rightBrace] => (entryValue c u).map ([·])
  | .leftParen :: .number c :: .comma :: .number u :: .rightParen :: .comma :: rest => do
    let e ← entryValue c u
    let es ← entryTokens rest
    some (e :: es)
  | _ => none

/-- The operands of each mnemonic (R60). -/
def requestTokens (mnemonic : List Char) (ts : List Token) : Option Instr :=
  if mnemonic = "WRAW".toList then
    match ts with
    | [.number c, .comma, .number a, .comma, .number d] => do
      let cmd ← fieldValue 4 c
      let addr ← fieldValue 4 a
      let data ← fieldValue 16 d
      some (.wraw cmd addr data)
    | _ => none
  else if mnemonic = "SETCH".toList then
    match ts with
    | [.number c, .comma, .number d, .comma, .number i, .comma, .number v] => do
      let ch ← fieldValue 8 c
      let code ← fieldValue 16 d
      let imm ← flagValue i
      let verbose ← flagValue v
      some (.setch ch code imm verbose)
    | _ => none
  else if mnemonic = "UPDCH".toList then
    match ts with
    | [.leftBrace, .rightBrace] => some (.updch [])
    | .leftBrace :: rest => (channelTokens rest).map .updch
    | _ => none
  else if mnemonic = "PWR".toList then
    match ts with
    | [.number c, .comma, .number u] => (entryValue c u).map fun e => .pwr e.ch e.up
    | _ => none
  else if mnemonic = "PWRB".toList then
    match ts with
    | [.leftBrace, .rightBrace] => some (.pwrb [])
    | .leftBrace :: rest => (entryTokens rest).map .pwrb
    | _ => none
  else if mnemonic = "SETREF".toList then
    match ts with
    | [.number e] => (flagValue e).map .setref
    | _ => none
  else if mnemonic = "LDAC".toList then
    match ts with
    | [.number d] => (fieldValue 32 d).map .ldac
    | _ => none
  else none

/-- What a listing line presents (R60): nothing for a blank line or a comment, the reset input for `RESET`, which is no
request, and else a request; the outer none where the line is no line of R60. -/
def assembleChars (line : List Char) : Option (Option Presented) :=
  match lexLine [] line with
  | none => none
  | some [] => some none
  | some (.name cs :: ts) =>
    if cs = "RESET".toList ∧ ts = [] then some (some .reset) else (requestTokens cs ts).map fun i => some (encode i)
  | some _ => none

/-- A listing line as a string. -/
def assembleLine (line : String) : Option (Option Presented) :=
  assembleChars line.toList

/-- A listing: the lines' requests in order; none where a line is no line of R60. -/
def assemble : List String → Option (List Presented)
  | [] => some []
  | line :: lines => do
    let p ← assembleLine line
    let ps ← assemble lines
    some (p.toList ++ ps)

end Sys2Proof.Machine
end

