-- ==== Sys2Proof/Tests/Slice0.lean ====
section
/-! SUPPORT. Tests. Expected values are the spec's: spec/95_test_vectors.md (W1 to W9 from the document, the tables of
section 2 derived from the rules), the corner cases of the request rules, and the encodings of spec/30_encoding.md. -/

namespace Sys2Proof.Tests

open Sys2Proof.Machine

/-! ### Well-formedness -/

/-- R62: an illegal op is ill-formed, and still accepted by the port; an op that R48 assigns is no illegal op. -/
theorem test_illformed_illegal_op :
    (Instr.illegalOp 0x0#4).wellFormed = false ∧ (Instr.illegalOp 0x8#4).wellFormed = false ∧
      (Instr.illegalOp 0x0#4).accepted = true ∧ (Instr.illegalOp 0x8#4).accepted = true ∧
      (Instr.illegalOp 0x1#4).accepted = false ∧ (Instr.illegalOp 0x7#4).accepted = false := by decide

/-- R62 on bits: SETREF with its one operand bit; with none, with one bit too many, with op 0x9; UPDCH with and without its end
marker. -/
theorem test_wellformed_requests :
    [fieldBits 4 0x6#4 ++ [true], fieldBits 4 0x6#4, fieldBits 4 0x6#4 ++ [true, false], fieldBits 4 0x9#4,
      fieldBits 4 0x3#4 ++ true :: fieldBits 8 5#8 ++ [false], fieldBits 4 0x3#4 ++ true :: fieldBits 8 5#8].map
        wellFormedRequest = [true, false, false, false, true, false] := by decide

/-! ### Decoding: words written out from R48, R49 and R51 -/

/-- Frames of R52, one for each command code: C in bits 23:20, A in 19:16, D in 15:0. -/
theorem test_decode_frames :
    decodeTableWord 24 0x0A1234 = some (.frmUnnamed0 0xA#4 0x1234#16) ∧
    decodeTableWord 24 0x13ABC0 = some (.frmWriteInput 0x3#4 0xABC0#16) ∧
    decodeTableWord 24 0x200224 = some (.frmUpdateDac 0x0#4 0x0224#16) ∧
    decodeTableWord 24 0x3FFFF0 = some (.frmWriteDac 0xF#4 0xFFF0#16) ∧
    decodeTableWord 24 0x48C000 = some (.frmPower 0x8#4 0xC000#16) ∧
    decodeTableWord 24 0x510002 = some (.frmLdacMask 0x1#4 0x0002#16) ∧
    decodeTableWord 24 0x600000 = some (.frmSwReset 0x0#4 0x0000#16) ∧
    decodeTableWord 24 0x700001 = some (.frmRefSetup 0x0#4 0x0001#16) ∧
    decodeTableWord 24 0x82FFFF = some (.frmDaisyChain 0x2#4 0xFFFF#16) ∧
    decodeTableWord 24 0x930001 = some (.frmReadback 0x3#4 0x0001#16) ∧
    decodeTableWord 24 0xA48000 = some (.frmWriteAllInput 0x4#4 0x8000#16) ∧
    decodeTableWord 24 0xB57FFF = some (.frmWriteAllDac 0x5#4 0x7FFF#16) ∧
    decodeTableWord 24 0xC60100 = some (.frmUnnamedC 0x6#4 0x0100#16) ∧
    decodeTableWord 24 0xD70010 = some (.frmUnnamedD 0x7#4 0x0010#16) ∧
    decodeTableWord 24 0xE8000F = some (.frmUnnamedE 0x8#4 0x000F#16) ∧
    decodeTableWord 24 0xFFFFFF = some (.frmUnnamedF 0xF#4 0xFFFF#16) := by decide

/-- The op values of R48 in the opcode table's eight bits, every other bit 0. -/
theorem test_decode_ops :
    (List.range 16).map (decodeTableWord 8) =
      [some (.illegalOp 0x0#4), some (.wraw 0#4 0#4 0#16), some (.setch 0#8 0#16 false false), some (.updch []),
        some (.pwr 0#8 false), some (.pwrb []), some (.setref false), some (.ldac 0#32), some (.illegalOp 0x8#4),
        some (.illegalOp 0x9#4), some (.illegalOp 0xA#4), some (.illegalOp 0xB#4), some (.illegalOp 0xC#4),
        some (.illegalOp 0xD#4), some (.illegalOp 0xE#4), some (.illegalOp 0xF#4)] := by decide

/-- Requests with operands: the op, then the fields of R49 in order, least significant bit first (log entry 5). -/
theorem test_decode_requests :
    -- WRAW: op 1, cmd 7, addr 5, data 0xA5C3
    decodeTableWord 32 0x0A5C3571 = some (.wraw 0x7#4 0x5#4 0xA5C3#16) ∧
    -- SETCH: op 2, ch 0x10, code 0x0FFF, imm 1, verbose 0
    decodeTableWord 32 0x10FFF102 = some (.setch 0x10#8 0x0FFF#16 true false) ∧
    -- PWR: op 4, ch 0x0F, up 1
    decodeTableWord 16 0x10F4 = some (.pwr 0x0F#8 true) ∧
    -- SETREF: op 6, ext 1
    decodeTableWord 8 0x16 = some (.setref true) ∧
    -- LDAC: op 7, delay 0x80000001
    decodeTableWord 40 0x800000017 = some (.ldac 0x80000001#32) := by decide

/-- UPDCH (5, 255) and PWRB ((10, up)): each entry behind a 1, the end marker a 0 (R50). -/
theorem test_decode_lists :
    decode (.request [true, true, false, false,
      true, true, false, true, false, false, false, false, false,
      true, true, true, true, true, true, true, true, true, false]) = .ok (.updch [5#8, 255#8]) ∧
    decode (.request [true, false, true, false,
      true, false, true, false, true, false, false, false, false, true, false]) =
      .ok (.pwrb [{ ch := 10#8, up := true }]) := by decide

/-- Bits that end before a request's fields do are refused by name; so are a reset and a stall. -/
theorem test_decode_refuses :
    decode (.request [true, false, false]) = .error .shortRequest ∧
    decode (.request [false, true, true, false]) = .error .shortRequest ∧
    decode .reset = .error .notARequest ∧ decode .stall = .error .notARequest := by decide

/-! ### Vectors -/

/-- A build. -/
def build (r : Resolution) (p : PowerDownPattern) : Config :=
  { Config.reference with resolution := r, powerDown := p }

/-- A state between requests, with nothing given out yet and `ps` presented. -/
def small (cfg : Config) (w0 w1 : Word) (ps : List Presented) : State :=
  { State.reset with cfg := cfg, sh := { w0 := w0, w1 := w1 }, events := [], port := ps }

/-- The braces of R60 are written as square brackets in the listing lines of these tests. -/
def curly (c : Char) : Char :=
  if c = '[' then Char.ofNat 123 else if c = ']' then Char.ofNat 125 else c

/-- One step on a listing line of R60: the events, the results and SH. -/
def runLine (cfg : Config) (w0 w1 : Word) (line : String) : Option (List Event × List Result × Word × Word) :=
  match assembleChars (line.toList.map curly) with
  | some (some p) =>
    match step (small cfg w0 w1 [p]) with
    | .next t => some (t.events, t.results, t.sh.w0, t.sh.w1)
    | .fault _ => none
    | .refused _ => none
  | _ => none

/-- RES = 12 and PD_PATTERN = 0b11. -/
def ref12 : Config := build .res12 .pattern11

/-- RES = 16 and PD_PATTERN = 0b11. -/
def ref16 : Config := build .res16 .pattern11

/-- One frame, a result, SH as it is after reset. -/
def sent (f : Frame) (r : Result) : Option (List Event × List Result × Word × Word) :=
  some ([.frame f], [r], 0#16, 0#16)

/-- Nothing sent, and an error code. -/
def nothing (r : Result) : Option (List Event × List Result × Word × Word) :=
  some ([], [r], 0#16, 0#16)

/-- Frames, OK, and what SH is then. -/
def power (fs : List Frame) (w0 w1 : Word) : Option (List Event × List Result × Word × Word) :=
  some (fs.map .frame, [.ok], w0, w1)

/-- 2.1; a power frame sent by WRAW leaves SH. -/
theorem test_wraw_vectors :
    ["WRAW 0x7, 0x0, 0x0001", "WRAW 0xF, 0xF, 0xFFFF ; unnamed code", "WRAW 0x4, 0x0, 0xFFFF",
      "WRAW 0x3, 0x5, 0xA5C3"].map (runLine ref12 0 0) =
    [sent 0x700001#24 .ok, sent 0xFFFFFF#24 .ok, sent 0x40FFFF#24 .ok, sent 0x35A5C3#24 .ok] := by decide

/-- 2.2 at RES = 12, W1 and W2. -/
theorem test_setch_vectors_res12 :
    ["SETCH 3, 0x0ABC, 0, 0", "SETCH 5, 0x1234, 0, 1", "SETCH 5, 0x1234, 0, 0", "SETCH 15, 0x0FFF, 1, 1",
      "SETCH 7, 0x1000, 1, 1", "SETCH 16, 0x0FFF, 1, 1", "SETCH 255, 0x0000, 0, 0",
      "SETCH 20, 0xFFFF, 1, 1"].map (runLine ref12 0 0) =
    [sent 0x13ABC0#24 .ok, sent 0x152340#24 .okWarnTrunc, sent 0x152340#24 .ok, sent 0x3FFFF0#24 .ok,
      sent 0x370000#24 .okWarnTrunc, nothing .errRange, nothing .errRange, nothing .errRange] := by decide

/-- 2.2 at RES = 16. -/
theorem test_setch_vectors_res16 :
    ["SETCH 15, 0xFFFF, 1, 1", "SETCH 0, 0x0FFF, 1, 0", "SETCH 9, 0x1234, 0, 1",
      "SETCH 16, 0x0001, 0, 0"].map (runLine ref16 0 0) =
    [sent 0x3FFFFF#24 .ok, sent 0x300FFF#24 .ok, sent 0x191234#24 .ok, nothing .errRange] := by decide

/-- 2.3 and W5. -/
theorem test_updch_vectors :
    ["UPDCH [2, 5, 9]", "UPDCH [5, 5]", "UPDCH []", "UPDCH [15]", "UPDCH [3, 16]"].map (runLine ref12 0 0) =
    [sent 0x200224#24 .ok, sent 0x200020#24 .ok, sent 0x200000#24 .ok, sent 0x208000#24 .ok, nothing .errRange] := by
  decide

/-- 2.4, rows 2, 5, 9, and R98's channels 7 and 8. -/
theorem test_pwr_vectors :
    runLine ref12 0x00C0#16 0 "PWR 3, 1" = power [0x400000#24] 0 0 ∧
    runLine ref12 0 0 "PWR 16, 0" = nothing .errRange ∧
    runLine ref12 0 0 "PWR 7, 0" = power [0x40C000#24] 0xC000#16 0 ∧
    runLine ref12 0xC003#16 0xC000#16 "PWR 8, 0" = power [0x48C003#24] 0xC003#16 0xC003#16 :=
  ⟨by decide, by decide, by decide, by decide⟩

/-- 2.4, rows 1, 3, 4, 6 and 7. -/
theorem test_pwrb_vectors :
    runLine ref12 0 0 "PWRB [(3,0), (10,1)]" = power [0x4000C0#24, 0x480000#24] 0x00C0#16 0 ∧
    runLine ref12 0 0 "PWRB [(0,0), (7,0), (15,0)]" = power [0x40C003#24, 0x48C000#24] 0xC003#16 0xC000#16 ∧
    runLine ref12 0 0 "PWRB []" = power [] 0 0 ∧
    runLine ref12 0 0 "PWRB [(2,0), (20,1)]" = nothing .errRange ∧
    runLine ref12 0xC003#16 0xC000#16 "PWRB [(4,0), (4,1)]" = power [0x40C003#24] 0xC003#16 0xC000#16 :=
  ⟨by decide, by decide +kernel, by decide, by decide, by decide⟩

/-- W6 with PD_PATTERN = 0b01. -/
theorem test_pwrb_other_pattern :
    runLine (build .res12 .pattern01) 0 0 "PWRB [(3,0), (10,1)]" = power [0x400040#24, 0x480000#24] 0x0040#16 0 := by
  decide

/-- 2.5 and W7. -/
theorem test_setref_vectors :
    ["SETREF 0", "SETREF 1"].map (runLine ref12 0 0) = [sent 0x700000#24 .ok, sent 0x700001#24 .ok] := by decide

/-- 2.6. -/
theorem test_ldac_vectors :
    ["LDAC 0", "LDAC 10", "LDAC 0xFFFFFFFF"].map (runLine ref12 0 0) =
    [some ([.line .lat false, .line .lat true], [.ok], 0, 0),
      some ([.line .lat false, .waitUs 10, .line .lat true], [.ok], 0, 0),
      some ([.line .lat false, .waitUs 0xFFFFFFFF#32, .line .lat true], [.ok], 0, 0)] := by decide +kernel

/-- 2.7: op 0xF with fields that would be an out-of-range SETCH. -/
theorem test_illegal_op_is_checked_first :
    step (small ref12 0 0 [.request (fieldBits 4 0xF#4 ++ (fieldBits 8 16#8 ++ (fieldBits 16 0#16 ++ [true, true])))]) =
      .next { small ref12 0 0 [] with results := [.errOpcode] } := rfl

/-- W8: RESET is no request. -/
theorem test_reset_vector :
    runLine ref12 0xC003#16 0xC000#16 "RESET" =
      some ([.line .sel true, .line .lat true, .line .rst true, .line .rst false, .waitMs 1, .line .rst true], [], 0, 0) := by
  decide

/-- 2.1: the wire bytes and bits of FRAME(0x35A5C3). -/
theorem test_wire_of_a_frame :
    wireOf [.frame 0x35A5C3#24] =
      [.line .sel false, .byte 0x35#8, .byte 0xA5#8, .byte 0xC3#8, .line .sel true] ∧
    (frameBits 0x35A5C3#24).take 8 = [false, false, true, true, false, true, false, true] := by decide

/-- A bare frame word runs as the frame instruction: the frame is sent, with no result and SH as it was. -/
theorem test_frame_row_runs :
    step ((small ref12 0 0 []).withFetchWord 24 0x40FFFF) =
      .next { small ref12 0 0 [] with events := [.frame 0x40FFFF#24] } := rfl

/-- R141: the transport stalls, and the next request with an event never ends; one that aborts does. -/
theorem test_stall :
    step { small ref12 0 0 [encode (.setref true)] with stalled := true } = .fault .transportStalled ∧
    step { small ref12 0 0 [encode (.pwr 16#8 true)] with stalled := true } =
      .next { small ref12 0 0 [] with stalled := true, results := [.errRange] } := ⟨rfl, rfl⟩

/-- R60: a comment is no request, `RESET` presents the reset input, and what is no listing line is refused. -/
theorem test_assemble_lines :
    ["; a comment", "RESET", "SETREF 0b1", "SETREF 2", "WRAW 0x10, 0, 0", "LDAC"].map assembleLine =
      [some none, some (some .reset), some (some (encode (.setref true))), none, none, none] := by decide

/-- N8: lists of unequal length are no request. -/
theorem test_unequal_lists : driverRequest (.powerUpDownBatch [3#8, 10#8] [false]) = none := rfl

/-! ### Witnesses: states and operands that meet every hypothesis of a statement together -/

/-- A state between requests with `ps` presented, right after reset. -/
def after (ps : List Presented) : State :=
  { State.reset with port := ps }

theorem witness_DecodeOfEncodeIsTheInstruction :
    (Instr.illegalOp 0xF#4).accepted = true ∧ (Instr.updch [255#8, 0#8]).accepted = true := ⟨rfl, rfl⟩

theorem witness_PackLaysOutTheFieldsInjectively : pack 0xF#4 0x0#4 0x8001#16 = pack 0xF#4 0x0#4 0x8001#16 := rfl

/-- The last assigned op with its operands, and the first illegal op above it. -/
theorem witness_OpFieldSelectsTheOperation :
    (takeField 4 (fieldBits 4 0x7#4 ++ fieldBits 32 1#32) = some (0x7#4, fieldBits 32 1#32) ∧
      decode (.request (fieldBits 4 0x7#4 ++ fieldBits 32 1#32)) = .ok (.ldac 1#32)) ∧
    (takeField 4 (fieldBits 4 0x8#4 ++ [true]) = some (0x8#4, [true]) ∧ legalOp 0x8#4 = false) := by decide

/-- A well-formed request of the last assigned op, and one with the first illegal op above it. -/
theorem witness_WellFormedRequestsAreTheRecordsOfAssignedOps :
    (takeField 4 (fieldBits 4 0x7#4 ++ fieldBits 32 1#32) = some (0x7#4, fieldBits 32 1#32) ∧
      wellFormedRequest (fieldBits 4 0x7#4 ++ fieldBits 32 1#32) = true) ∧
    (takeField 4 (fieldBits 4 0x8#4 ++ [true]) = some (0x8#4, [true]) ∧ 8 ≤ (0x8#4 : Nibble).toNat) := by decide

theorem witness_StepRunsTheDecodedInstruction :
    (after [encode (.setref true), .reset]).port = encode (.setref true) :: [.reset] ∧
      decode (encode (.setref true)) = .ok (.setref true) ∧ (after [encode (.setref true), .reset]).stalled = false :=
  ⟨rfl, rfl, rfl⟩

theorem witness_IdleBlockStaysAsItIs : (after []).port = [] := rfl

theorem witness_StepTakesWhatIsPresentedFirst :
    ∃ t, step (after [encode (.ldac 10#32), encode (.setref true)]) = .next t := ⟨_, rfl⟩

/-- A stall, an instruction with an event, a reset, and a step that ends while the transport is stalled. -/
theorem witness_StalledTransportLeavesTheRequestUnfinished :
    (after [.stall]).port = .stall :: [] ∧
    (∃ t, exec (.setref true) { after [] with stalled := true } = .next t ∧
      t.events ≠ ({ after [encode (.setref true)] with stalled := true } : State).events) ∧
    ({ after [.reset] with stalled := true } : State).port = .reset :: [] ∧
    ∃ t, step { after [encode (.pwr 16#8 false)] with stalled := true } = .next t :=
  ⟨rfl, ⟨_, rfl, by decide⟩, rfl, ⟨_, rfl⟩⟩

/-- Channels at both sides of the limit of 16. -/
theorem witness_SetchSendsTheShapedCode : (15#8 : Channel).toNat < 16 ∧ 16 ≤ (16#8 : Channel).toNat := by decide

theorem witness_UpdchSendsTheMaskOfTheListedChannels :
    (∀ c ∈ ([0#8, 15#8] : List Channel), c.toNat < 16) ∧ ∃ c ∈ ([15#8, 16#8] : List Channel), 16 ≤ c.toNat := by decide

theorem witness_UpdchReadsItsListAsASet :
    ∀ c : Channel, c ∈ [2#8, 5#8, 9#8] ↔ c ∈ [9#8, 5#8, 2#8, 5#8] := by
  intro c; simp only [List.mem_cons, List.not_mem_nil]; tauto

/-- The last channel of bank 0, both ends of bank 1, and the first channel out of range. -/
theorem witness_PwrSetsOnePairAndSendsItsBank :
    (7#8 : Channel).toNat < 8 ∧ (8 ≤ (8#8 : Channel).toNat ∧ (15#8 : Channel).toNat < 16) ∧
      16 ≤ (16#8 : Channel).toNat := by decide

theorem witness_PwrbAppliesItsListAndSendsTheTouchedBanks :
    (∀ e ∈ ([⟨7#8, false⟩, ⟨8#8, true⟩, ⟨15#8, false⟩] : List PowerEntry), e.ch.toNat < 16) ∧
      ∃ e ∈ ([⟨15#8, false⟩, ⟨16#8, true⟩] : List PowerEntry), 16 ≤ e.ch.toNat := by decide

theorem witness_RepeatedPowerRequestSendsTheSameFrames :
    isPower (.pwr 7#8 false) = true ∧
      ∃ t u, exec (.pwr 7#8 false) (after []) = .next t ∧ exec (.pwr 7#8 false) t = .next u :=
  ⟨rfl, _, _, rfl, rfl⟩

theorem witness_SettingAPairByReplacementOrByOrAgree : 7 < 8 ∧ PairsLegal ref12 0xC003#16 := by decide

/-- All 16 channels, from the last to the first, and channel 15 again. -/
theorem witness_FullPowerRequestRestoresTheShadow :
    (∀ e ∈ ((List.range 16).map fun c => (⟨BitVec.ofNat 8 (15 - c), false⟩ : PowerEntry)) ++ [⟨15#8, true⟩],
      e.ch.toNat < 16) ∧
    ∀ c < 16, ∃ e ∈ ((List.range 16).map fun c => (⟨BitVec.ofNat 8 (15 - c), false⟩ : PowerEntry)) ++ [⟨15#8, true⟩],
      e.ch.toNat = c := by decide

theorem witness_LdacPulsesTheLatchLine : 0 < (1#32 : Delay).toNat := by decide

/-- Op 0x0 and the first op above the assigned ones, with operand bits behind them. -/
theorem witness_IllegalRequestEndsWhateverItsOperands :
    (takeField 4 (fieldBits 4 0x0#4 ++ [true, true]) = some (0x0#4, [true, true])) ∧
    (takeField 4 (fieldBits 4 0x8#4 ++ [true]) = some (0x8#4, [true]) ∧ 8 ≤ (0x8#4 : Nibble).toNat) ∧
    (after [.request (fieldBits 4 0x8#4 ++ [true])]).port = .request (fieldBits 4 0x8#4 ++ [true]) :: [] := by decide

theorem witness_WrawIsItsFrameWithAResult :
    ∃ t, exec (decodeFrame ((0x4#4 ++ 0x8#4) ++ 0xFFFF#16)) (after []) = .next t := ⟨_, rfl⟩

/-- A request and a frame row. -/
theorem witness_EveryRequestGivesOneResult :
    (isRequest (.setref true) = true ∧ ∃ t, exec (.setref true) (after []) = .next t) ∧
      isRequest (.frmPower 0#4 0#16) = false ∧ ∃ t, exec (.frmPower 0#4 0#16) (after []) = .next t :=
  ⟨⟨rfl, _, rfl⟩, rfl, _, rfl⟩

theorem witness_OpcodeErrorExactlyForAnIllFormedRequest :
    (∃ t, exec (.illegalOp 0x8#4) (after []) = .next t) ∧ ∃ t, exec (.ldac 0#32) (after []) = .next t :=
  ⟨⟨_, rfl⟩, _, rfl⟩

theorem witness_AbortedRequestsLeaveNoTrace :
    ∃ t, exec (.setch 16#8 0#16 true true) (after []) = .next t ∧ t.results = (after []).results ++ [.errRange] ∧
      isAbort .errRange = true := ⟨_, rfl, rfl, rfl⟩

theorem witness_RangeErrorExactlyForABadChannel :
    ∃ t, exec (.pwrb [⟨15#8, true⟩, ⟨16#8, true⟩]) (after []) = .next t := ⟨_, rfl⟩

theorem witness_TruncationWarningOnlyFromSetch :
    ∃ t, exec (.setch 15#8 0x1000#16 false true) (after []) = .next t ∧
      t.results = (after []).results ++ [.okWarnTrunc] := ⟨_, rfl, rfl⟩

/-- A state that no run reaches meets the hypotheses. -/
theorem witness_BlockNeverReportsAnUndefinedReference :
    ∃ t, step { after [encode (.setref true)] with results := [.errRefUndef] } = .next t ∧
      Result.errRefUndef ∈ t.results := ⟨_, rfl, by decide⟩

/-- A request that aborts and one that completes. -/
theorem witness_FramesPerRequest :
    (∃ t, exec (.updch [16#8]) (after []) = .next t ∧ ∃ r, t.results = (after []).results ++ [r] ∧ isAbort r = true) ∧
    ∃ t, exec (.pwrb [⟨7#8, true⟩, ⟨8#8, true⟩]) (after []) = .next t ∧
      ∀ r, t.results = (after []).results ++ [r] → isAbort r = false :=
  ⟨⟨_, rfl, .errRange, rfl, rfl⟩, _, rfl, fun r h => by cases h; rfl⟩

theorem witness_TypedRequestsSendImplementedCommands :
    (isTyped (.pwr 15#8 true) = true ∧ ∃ t, exec (.pwr 15#8 true) (after []) = .next t) ∧
      ∃ t, exec (.ldac 0#32) (after []) = .next t := ⟨⟨rfl, _, rfl⟩, _, rfl⟩

theorem witness_OnlyPowerRequestsWriteTheShadow :
    ∃ t, exec (.pwr 15#8 false) (after []) = .next t ∧ t.sh ≠ (after []).sh := ⟨_, rfl, by decide⟩

theorem witness_OnlyLdacDrivesTheLatchAndNoneTheResetLine :
    ∃ t, exec (.setref true) (after []) = .next t ∧ ∀ delay, Instr.setref true ≠ .ldac delay :=
  ⟨_, rfl, fun _ => by simp⟩

/-- Two states that differ in what they have given out and in what is presented. -/
theorem witness_EarlierOutputIsNotRead :
    (after []).cfg = (small ref12 0 0 [.reset]).cfg ∧ (after []).sh = (small ref12 0 0 [.reset]).sh ∧
      (after []).selQ = (small ref12 0 0 [.reset]).selQ ∧ (after []).latQ = (small ref12 0 0 [.reset]).latQ ∧
      (after []).rstQ = (small ref12 0 0 [.reset]).rstQ ∧ (after []).events ≠ (small ref12 0 0 [.reset]).events ∧
      (∃ t, exec (.pwr 7#8 false) (after []) = .next t) ∧
      ∃ t, exec (.pwr 7#8 false) (small ref12 0 0 [.reset]) = .next t :=
  ⟨rfl, rfl, rfl, rfl, rfl, by decide, ⟨_, rfl⟩, _, rfl⟩

theorem witness_StepKeepsTheBuildParameters : ∃ t, step (after [encode (.pwr 7#8 false)]) = .next t := ⟨_, rfl⟩

theorem witness_StepAppendsToTheOutput : ∃ t, step (after [encode (.updch [15#8])]) = .next t := ⟨_, rfl⟩

/-- A reset, and something else. -/
theorem witness_EachResetEmitsOneResetPulse :
    ((after [.reset]).port.head? = some .reset ∧ ∃ t, step (after [.reset]) = .next t) ∧
      (after [encode (.ldac 1#32)]).port.head? ≠ some .reset ∧ ∃ t, step (after [encode (.ldac 1#32)]) = .next t :=
  ⟨⟨rfl, _, rfl⟩, by decide, _, rfl⟩

theorem witness_StepKeepsTheStateBetweenRequests :
    BetweenRequests (after [encode (.pwr 15#8 false)]) ∧ ∃ t, step (after [encode (.pwr 15#8 false)]) = .next t :=
  ⟨⟨by decide, by decide, fun id => by cases id <;> rfl, by decide⟩, _, rfl⟩

theorem witness_ReachableStatesAreBetweenRequests : ∃ s, Reachable s :=
  ⟨_, .step (.present (encode (.setref true)) (.start ref16)) rfl⟩

theorem witness_ResetClearsTheShadowAndPulsesTheResetLine :
    (small ref16 0xC003#16 0xC000#16 [.reset]).port = .reset :: [] ∧
      (small ref16 0xC003#16 0xC000#16 [.reset]).stalled = false := ⟨rfl, rfl⟩

end Sys2Proof.Tests
end

/-! PROOF. The statements of spec/00_scope.md: what the document's calls present, what a step runs, and what a request gives
back. -/

namespace Sys2Proof

/-! ### A request read back: one lemma per format of R49 -/

/-- A field read from where it was laid out, with nothing behind it. -/
@[simp] theorem takeField_fieldBits_nil (n : Nat) (v : BitVec n) : takeField n (fieldBits n v) = some (v, []) := by
  simpa using takeField_fieldBits n v []

@[simp] theorem takeEntry_entryBits_nil (e : PowerEntry) : takeEntry (entryBits e) = some (e, []) := by
  simpa using takeEntry_entryBits e []

/-- The fuel the operand readers give, the number of bits, is enough for any list. -/
theorem takeList_length_listBits {α : Type} (enc : α → List Bool) (take : List Bool → Option (α × List Bool))
    (h : ∀ x rest, take (enc x ++ rest) = some (x, rest)) (xs : List α) :
    takeList take (listBits enc xs).length (listBits enc xs) = some (xs, []) := by
  simpa using takeList_listBits enc take h xs [] _ (length_le_listBits enc xs)

@[simp] theorem takeChannels_listBits (list : List Channel) :
    takeChannels (listBits (fieldBits 8) list) = some (.updch list) := by
  simp [takeChannels, takeList_length_listBits (fieldBits 8) (takeField 8) (takeField_fieldBits 8)]

@[simp] theorem takeEntries_listBits (list : List PowerEntry) :
    takeEntries (listBits entryBits list) = some (.pwrb list) := by
  simp [takeEntries, takeList_length_listBits entryBits takeEntry takeEntry_entryBits]

/-- A request decodes to what the reader of its op's format makes of the bits behind the op (R48). -/
theorem decode_request_of_operands {op : Nibble} {bits : List Bool} {i : Instr} (h : takeOperands op bits = some i) :
    decode (.request (fieldBits 4 op ++ bits)) = .ok i := by
  simp [decode, decodeRequest, h]

@[simp] theorem decode_encode_wraw (cmd addr : Nibble) (data : Word) :
    decode (encode (.wraw cmd addr data)) = .ok (.wraw cmd addr data) :=
  decode_request_of_operands (by simp [takeOperands, takeRaw])

@[simp] theorem decode_encode_setch (ch : Channel) (code : Word) (imm verbose : Bool) :
    decode (encode (.setch ch code imm verbose)) = .ok (.setch ch code imm verbose) :=
  decode_request_of_operands (by simp [takeOperands, takeCh])

@[simp] theorem decode_encode_updch (list : List Channel) : decode (encode (.updch list)) = .ok (.updch list) :=
  decode_request_of_operands (by simp [takeOperands])

@[simp] theorem decode_encode_pwr (ch : Channel) (up : Bool) : decode (encode (.pwr ch up)) = .ok (.pwr ch up) :=
  decode_request_of_operands (by simp [takeOperands, takePwr])

@[simp] theorem decode_encode_pwrb (list : List PowerEntry) : decode (encode (.pwrb list)) = .ok (.pwrb list) :=
  decode_request_of_operands (by simp [takeOperands])

@[simp] theorem decode_encode_setref (ext : Bool) : decode (encode (.setref ext)) = .ok (.setref ext) :=
  decode_request_of_operands (by simp [takeOperands, takeRef])

@[simp] theorem decode_encode_ldac (delay : Delay) : decode (encode (.ldac delay)) = .ok (.ldac delay) :=
  decode_request_of_operands (by simp [takeOperands, takeDelay])

namespace Machine

/-! ### The document's calls -/

/-- The two lists of a batch power call, taken from entries, pair up to these entries (D8). -/
@[simp] theorem pairEntries_map (entries : List PowerEntry) :
    pairEntries (entries.map PowerEntry.ch) (entries.map PowerEntry.up) = some entries := by
  induction entries with
  | nil => rfl
  | cons e es ih => simp [pairEntries, ih]

/-- A call's request, read back: what R61 lists for the call, and that its record round-trips. -/
theorem map_decode_driverRequest {call : DriverCall} {i : Instr} (hc : driverRequest call = some (encode i))
    (hd : decode (encode i) = .ok i) : (driverRequest call).map decode = some (.ok i) := by
  rw [hc, Option.map_some, hd]

/-- Settles O50: each call presents `encode` of the listed request, and each of the seven formats reads back. -/
theorem documentCallsBecomeTheListedRequests : Obligations.DocumentCallsBecomeTheListedRequests := by
  refine ⟨fun channels => ?updateChannels, fun ch code imm verbose => ?setChannel, ?internal, ?external, ?voltage,
    fun ch up => ?powerUpDown, fun entries => ?batch, fun delay => ?updateDac, fun cmd addr data => ?writeData,
    fun ups => ?resynchronise, ?construct⟩
  case updateChannels => exact map_decode_driverRequest rfl (decode_encode_updch channels)
  case setChannel => exact map_decode_driverRequest rfl (decode_encode_setch ch code imm verbose)
  case internal => exact map_decode_driverRequest rfl (decode_encode_setref false)
  case external => exact map_decode_driverRequest rfl (decode_encode_setref true)
  case voltage => exact map_decode_driverRequest rfl (decode_encode_setref true)
  case powerUpDown => exact map_decode_driverRequest rfl (decode_encode_pwr ch up)
  case batch => exact map_decode_driverRequest (by simp [driverRequest]) (decode_encode_pwrb entries)
  case updateDac => exact map_decode_driverRequest rfl (decode_encode_ldac delay)
  case writeData => exact map_decode_driverRequest rfl (decode_encode_wraw cmd addr data)
  case resynchronise => exact map_decode_driverRequest rfl (decode_encode_pwrb (resyncEntries ups))
  case construct => rfl

/-! ### The step -/

/-- The step on what decodes: the instruction's meaning, as far as the transport carries it. A reset and a stall have arms of
their own in `step`, but neither decodes. -/
theorem step_of_decode {s : State} {p : Presented} {rest : List Presented} {i : Instr} (hp : s.port = p :: rest)
    (hd : decode p = .ok i) : step s = withTransport s (exec i { s with port := rest }) := by
  cases p with
  | request bits => simp [step, hp, hd]
  | frame f => simp [step, hp, hd]
  | reset => simp [decode] at hd
  | stall => simp [decode] at hd

/-- Settles O6: `step_of_decode`, where the transport lets every outcome pass. -/
theorem stepRunsTheDecodedInstruction : Obligations.StepRunsTheDecodedInstruction := by
  intro s p rest i hp hd hs
  rw [step_of_decode hp hd, withTransport_running s hs]

/-! ### The result code -/

/-- Settles O27: the result codes that `exec_spec` appends, on either side of `isRequest`. -/
theorem everyRequestGivesOneResult : Obligations.EveryRequestGivesOneResult := by
  intro i s t h
  obtain ⟨sh, es, rs, ho, -, -, hrequest, hrow⟩ := exec_spec i s
  obtain rfl := Host.Outcome.next.inj (h.symm.trans ho)
  constructor
  · intro hi
    obtain ⟨r, rfl, -⟩ := hrequest hi
    exact ⟨r, rfl⟩
  · intro hi
    simp [hrow hi]

end Machine

end Sys2Proof

/-! PROOF. The statements of spec/10_state.md: what the state holds between requests and which instruction may write what. -/

namespace Sys2Proof.Machine

/-! ### What emitting a list leaves, field by field -/

section EmitAll
variable (s : State) (es : List Event)

@[simp] theorem emitAll_cfg : (emitAll s es).cfg = s.cfg := by
  obtain ⟨sel, lat, rst, h⟩ := emitAll_spec s es
  rw [h]

@[simp] theorem emitAll_sh : (emitAll s es).sh = s.sh := by
  obtain ⟨sel, lat, rst, h⟩ := emitAll_spec s es
  rw [h]

@[simp] theorem emitAll_events : (emitAll s es).events = s.events ++ es := by
  obtain ⟨sel, lat, rst, h⟩ := emitAll_spec s es
  rw [h]

@[simp] theorem emitAll_port : (emitAll s es).port = s.port := by
  obtain ⟨sel, lat, rst, h⟩ := emitAll_spec s es
  rw [h]

/-- LDAC's events leave the latch line high and the other lines as they are (R87). -/
@[simp] theorem emitAll_ldacEvents (delay : Delay) :
    emitAll s (ldacEvents delay) = { s with latQ := true, events := s.events ++ ldacEvents delay } := by
  unfold ldacEvents
  split <;> simp

end EmitAll

/-- `exec_spec`, turned on the next state that an instruction ended in. -/
theorem effect_of_exec {i : Instr} {s t : State} (h : exec i s = .next t) : Effect i s (.next t) :=
  h ▸ exec_spec i s

theorem exec_cfg {i : Instr} {s t : State} (h : exec i s = .next t) : t.cfg = s.cfg := by
  obtain ⟨sh, es, rs, ho, -⟩ := effect_of_exec h
  obtain rfl := Host.Outcome.next.inj ho
  simp

theorem exec_port {i : Instr} {s t : State} (h : exec i s = .next t) : t.port = s.port := by
  obtain ⟨sh, es, rs, ho, -⟩ := effect_of_exec h
  obtain rfl := Host.Outcome.next.inj ho
  simp

/-! ### The level registers (R25) -/

/-- What is driven later on a line hides what is driven before it. -/
theorem lastLevel_cons (id : LineId) (w : WireStep) (ws : List WireStep) :
    lastLevel id (w :: ws) = (lastLevel id ws).or (lastLevel id [w]) := by
  cases w with
  | line id' level => cases h : lastLevel id ws <;> simp [lastLevel, h]
  | byte b => simp [lastLevel]
  | waitUs n => simp [lastLevel]
  | waitMs n => simp [lastLevel]

theorem lastLevel_append (id : LineId) (vs ws : List WireStep) :
    lastLevel id (vs ++ ws) = (lastLevel id ws).or (lastLevel id vs) := by
  induction vs with
  | nil => simp [lastLevel]
  | cons v vs ih => rw [List.cons_append, lastLevel_cons, ih, lastLevel_cons id v vs, Option.or_assoc]

theorem wireOf_append (es es' : List Event) : wireOf (es ++ es') = wireOf es ++ wireOf es' :=
  List.flatMap_append

/-- One wire step sets the register of the line it drives and no other. -/
theorem lineLevel_driveStep (id : LineId) (s : State) (w : WireStep) :
    lineLevel (driveStep s w) id = (lastLevel id [w]).getD (lineLevel s id) := by
  cases w with
  | line id' level => cases id' <;> cases id <;> rfl
  | byte b => rfl
  | waitUs n => rfl
  | waitMs n => rfl

theorem lineLevel_foldl_driveStep (id : LineId) (s : State) (ws : List WireStep) :
    lineLevel (ws.foldl driveStep s) id = (lastLevel id ws).getD (lineLevel s id) := by
  induction ws generalizing s with
  | nil => rfl
  | cons w ws ih =>
    rw [List.foldl_cons, ih, lineLevel_driveStep, lastLevel_cons id w ws]
    cases lastLevel id ws <;> simp

theorem lineLevel_emit (id : LineId) (s : State) (e : Event) :
    lineLevel (emit s e) id = (lastLevel id (wireExpansion e)).getD (lineLevel s id) := by
  rw [← lineLevel_foldl_driveStep]
  cases id <;> rfl

/-- After a list of events a register holds the level they drive last on its line, and its old level where they drive
none. -/
theorem lineLevel_emitAll (id : LineId) (s : State) (es : List Event) :
    lineLevel (emitAll s es) id = (lastLevel id (wireOf es)).getD (lineLevel s id) := by
  induction es generalizing s with
  | nil => rfl
  | cons e es ih =>
    have hw : wireOf (e :: es) = wireExpansion e ++ wireOf es := rfl
    rw [emitAll_cons, ih, lineLevel_emit, hw, lastLevel_append]
    cases lastLevel id (wireOf es) <;> simp

/-- The registers follow the wire whatever is emitted. -/
theorem levelsFollowWire_emitAll {s : State} (h : LevelsFollowWire s) (es : List Event) :
    LevelsFollowWire (emitAll s es) := by
  intro id
  rw [emitAll_events, wireOf_append, lastLevel_append, h id, lineLevel_emitAll, Option.or_some]

/-! ### The framing of the wire (R37, R69, R72) -/

/-- A select line driven low by an event of its own encloses no byte: bytes come from frames, which bring their own pulse. -/
theorem wellFramed_selLow_cons (es : List Event) : wellFramed (.line .sel false :: wireOf es) = false := by
  cases es with
  | nil => rfl
  | cons e es => cases e <;> rfl

/-- The wire is framed exactly where no event but a frame drives the select line low. -/
theorem wellFramed_wireOf_iff (es : List Event) : wellFramed (wireOf es) = true ↔ Event.line .sel false ∉ es := by
  induction es with
  | nil => simp [wireOf, wellFramed]
  | cons e es ih =>
    cases e with
    | frame f =>
      have h : wellFramed (wireOf (.frame f :: es)) = wellFramed (wireOf es) := rfl
      simp [h, ih]
    | line id level =>
      have hw : wireOf (.line id level :: es) = .line id level :: wireOf es := rfl
      cases id with
      | sel =>
        cases level with
        | false => simp [hw, wellFramed_selLow_cons]
        | true => simp [hw, wellFramed, ih]
      | lat => simp [hw, wellFramed, ih]
      | rst => simp [hw, wellFramed, ih]
    | waitUs n =>
      have h : wellFramed (wireOf (.waitUs n :: es)) = wellFramed (wireOf es) := rfl
      simp [h, ih]
    | waitMs n =>
      have h : wellFramed (wireOf (.waitMs n :: es)) = wellFramed (wireOf es) := rfl
      simp [h, ih]

/-- What an instruction gives out (`exec_spec`) drives no select line by itself. -/
theorem selLow_notMem_frames (fs : List Frame) : Event.line .sel false ∉ fs.map Event.frame := by simp

theorem selLow_notMem_ldacEvents (delay : Delay) : Event.line .sel false ∉ ldacEvents delay := by
  unfold ldacEvents
  split <;> simp

/-! ### The shadow words (R33) -/

/-- `ShadowLegal` of a pair of words on their own: the working words of R27 belong to no state. -/
abbrev LegalWords (cfg : Config) (sh : Shadow) : Prop :=
  PairsLegal cfg sh.w0 ∧ PairsLegal cfg sh.w1

theorem pairsLegal_zero (cfg : Config) : PairsLegal cfg 0x0000#16 :=
  fun k _ => .inl (by simp [readPair])

/-- Writing an entry's value into any pair keeps a word legal: its own pair by R94, the others because they stay. -/
theorem pairsLegal_writePair {cfg : Config} {w : Word} (hw : PairsLegal cfg w) {k : Nat} (hk : k < 8) (up : Bool) :
    PairsLegal cfg (writePair w (2 * k) (pairValue cfg up)) := by
  intro j hj
  by_cases hjk : j = k
  · subst hjk
    rw [readPair_writePair_same w j _ hk]
    cases up <;> simp [pairValue]
  · rw [readPair_writePair_other w j k _ hk hjk]
    exact hw j hj

theorem legalWords_applyEntry {cfg : Config} {k : Working} (hk : LegalWords cfg k.w) (e : PowerEntry) :
    LegalWords cfg (applyEntry cfg k e).w := by
  obtain ⟨h0, h1⟩ := hk
  have hpos : e.ch.toNat % 8 < 8 := Nat.mod_lt _ (by omega)
  cases hb : bankOf e.ch with
  | bank0 => simpa [applyEntry, hb, posOf_eq] using And.intro (pairsLegal_writePair h0 hpos e.up) h1
  | bank1 => simpa [applyEntry, hb, posOf_eq] using And.intro h0 (pairsLegal_writePair h1 hpos e.up)

theorem legalWords_applyEntries {cfg : Config} {sh : Shadow} (h : LegalWords cfg sh) (list : List PowerEntry) :
    LegalWords cfg (applyEntries cfg sh list).w := by
  suffices hfold : ∀ k : Working, LegalWords cfg k.w → LegalWords cfg (list.foldl (applyEntry cfg) k).w from
    hfold { w := sh, t0 := false, t1 := false } h
  induction list with
  | nil => exact fun _ hk => hk
  | cons e es ih => exact fun k hk => ih _ (legalWords_applyEntry hk e)

/-- The power requests are the batch power algorithm on a list (R95, R98). -/
theorem exec_of_isPower {i : Instr} (h : isPower i = true) : ∃ list, ∀ s, exec i s = powerRequest list s := by
  cases i with
  | pwr ch up => exact ⟨[{ ch := ch, up := up }], fun _ => rfl⟩
  | pwrb list => exact ⟨list, fun _ => rfl⟩
  | _ => simp [isPower] at h

theorem exec_sh_of_not_isPower {i : Instr} {s t : State} (h : exec i s = .next t) (hi : isPower i ≠ true) :
    t.sh = s.sh := by
  obtain ⟨sh, es, rs, ho, hsh, -⟩ := effect_of_exec h
  obtain rfl := Host.Outcome.next.inj ho
  simpa using mt hsh hi

theorem powerRequest_keeps_legalWords {list : List PowerEntry} {s t : State} (hs : ShadowLegal s)
    (h : powerRequest list s = .next t) : LegalWords s.cfg t.sh := by
  rw [powerRequest_spec] at h
  split at h
  · obtain rfl := Host.Outcome.next.inj h
    exact hs
  · obtain rfl := Host.Outcome.next.inj h
    simpa using legalWords_applyEntries hs list

theorem exec_keeps_shadowLegal {i : Instr} {s t : State} (hs : ShadowLegal s) (h : exec i s = .next t) :
    ShadowLegal t := by
  suffices hw : LegalWords s.cfg t.sh by simpa [ShadowLegal, exec_cfg h] using hw
  by_cases hi : isPower i = true
  · obtain ⟨list, hlist⟩ := exec_of_isPower hi
    exact powerRequest_keeps_legalWords hs (hlist s ▸ h)
  · simpa [exec_sh_of_not_isPower h hi] using hs

/-! ### The state between requests -/

/-- The invariant does not speak of the results, the port and the stall (log entries 7, 8 and 9). -/
theorem BetweenRequests.of_modelFields {s : State} (h : BetweenRequests s) (results : List Result)
    (port : List Presented) (stalled : Bool) :
    BetweenRequests { s with results := results, port := port, stalled := stalled } :=
  ⟨h.shadow, h.lines, h.levels, h.framed⟩

/-- What an instruction gives out leaves the lines high. -/
theorem exec_keeps_linesHigh {i : Instr} {s t : State} (hs : LinesHigh s) (h : exec i s = .next t) : LinesHigh t := by
  obtain ⟨hsel, hlat, hrst⟩ := hs
  obtain ⟨sh, es, rs, ho, -, hes, -⟩ := effect_of_exec h
  obtain rfl := Host.Outcome.next.inj ho
  obtain ⟨fs, rfl⟩ | ⟨delay, -, rfl⟩ := hes
  · simp [emitAll_frames, hsel, hlat, hrst]
  · simp [hsel, hrst]

theorem exec_keeps_levelsFollowWire {i : Instr} {s t : State} (hs : LevelsFollowWire s) (h : exec i s = .next t) :
    LevelsFollowWire t := by
  obtain ⟨sh, es, rs, ho, -⟩ := effect_of_exec h
  obtain rfl := Host.Outcome.next.inj ho
  have hsh : LevelsFollowWire { s with sh := sh } := hs
  exact levelsFollowWire_emitAll hsh es

theorem exec_keeps_wellFramed {i : Instr} {s t : State} (hs : wellFramed (wireOf s.events) = true)
    (h : exec i s = .next t) : wellFramed (wireOf t.events) = true := by
  obtain ⟨sh, es, rs, ho, -, hes, -⟩ := effect_of_exec h
  obtain rfl := Host.Outcome.next.inj ho
  rw [wellFramed_wireOf_iff] at hs
  have hnew : Event.line .sel false ∉ es := by
    obtain ⟨fs, rfl⟩ | ⟨delay, -, rfl⟩ := hes
    · exact selLow_notMem_frames fs
    · exact selLow_notMem_ldacEvents delay
  simp [wellFramed_wireOf_iff, hs, hnew]

theorem exec_keeps_betweenRequests {i : Instr} {s t : State} (hs : BetweenRequests s) (h : exec i s = .next t) :
    BetweenRequests t where
  shadow := exec_keeps_shadowLegal hs.shadow h
  lines := exec_keeps_linesHigh hs.lines h
  levels := exec_keeps_levelsFollowWire hs.levels h
  framed := exec_keeps_wellFramed hs.framed h

/-- The reset sequence drives every line, so that all it needs of the state before it is a framed wire (R129, R130). -/
theorem betweenRequests_performReset {s : State} (h : wellFramed (wireOf s.events) = true) :
    BetweenRequests (performReset s) := by
  rw [performReset_eq]
  refine ⟨⟨pairsLegal_zero _, pairsLegal_zero _⟩, ⟨rfl, rfl, rfl⟩, fun id => ?levels, ?framed⟩
  case levels =>
    have hlast : lastLevel id (wireOf (resetEvents s.cfg)) = some true := by cases id <;> rfl
    rw [wireOf_append, lastLevel_append, hlast]
    cases id <;> rfl
  case framed =>
    rw [wellFramed_wireOf_iff] at h ⊢
    simp [resetEvents, h]

/-- Settles O42: each of the four things that `step_cases` lets a step do keeps the invariant. -/
theorem stepKeepsTheStateBetweenRequests : Obligations.StepKeepsTheStateBetweenRequests := by
  intro s t hs h
  have hport (rest : List Presented) : BetweenRequests { s with port := rest } :=
    hs.of_modelFields s.results rest s.stalled
  obtain ⟨-, rfl⟩ | ⟨rest, -, -, rfl⟩ | ⟨rest, -, rfl⟩ | ⟨p, rest, i, -, -, he, -⟩ := step_cases h
  · exact hs
  · exact betweenRequests_performReset hs.framed
  · exact hs.of_modelFields s.results rest true
  · exact exec_keeps_betweenRequests (hport rest) he

/-- Settles O43: the machine after reset is what the reset sequence leaves where nothing has been given out. -/
theorem resetGivesTheStateBetweenRequests : Obligations.ResetGivesTheStateBetweenRequests := by
  have h : State.reset = performReset { State.reset with events := [] } := rfl
  unfold Obligations.ResetGivesTheStateBetweenRequests
  rw [h]
  exact betweenRequests_performReset rfl

/-- Settles O44, by induction on the run. -/
theorem reachableStatesAreBetweenRequests : Obligations.ReachableStatesAreBetweenRequests := by
  intro s h
  induction h with
  | start cfg => exact betweenRequests_performReset rfl
  | present p _ ih => exact ih.of_modelFields _ _ _
  | step _ hstep ih => exact stepKeepsTheStateBetweenRequests _ _ ih hstep

/-! ### What a step takes and what it keeps -/

/-- Settles O7: the arm of `step` for an empty port. -/
theorem idleBlockStaysAsItIs : Obligations.IdleBlockStaysAsItIs := by
  intro s h
  simp [step, h]

/-- Settles O8: in each case of `step_cases` the port is left without its head, and no instruction writes the port. -/
theorem stepTakesWhatIsPresentedFirst : Obligations.StepTakesWhatIsPresentedFirst := by
  intro s t h
  obtain ⟨hp, rfl⟩ | ⟨rest, hp, -, rfl⟩ | ⟨rest, hp, rfl⟩ | ⟨p, rest, i, hp, -, he, -⟩ := step_cases h
  · simp [hp]
  · simp [hp]
  · simp [hp]
  · simp [hp, exec_port he]

/-- Settles O39: in each case of `step_cases`, and no instruction writes a build parameter. -/
theorem stepKeepsTheBuildParameters : Obligations.StepKeepsTheBuildParameters := by
  intro s t h
  obtain ⟨-, rfl⟩ | ⟨rest, -, -, rfl⟩ | ⟨rest, -, rfl⟩ | ⟨p, rest, i, -, -, he, -⟩ := step_cases h
  · rfl
  · simp
  · rfl
  · simp [exec_cfg he]

/-- Settles O46: the fields of `State.reset` as they stand. -/
theorem stateAfterReset : Obligations.StateAfterReset :=
  ⟨rfl, rfl, rfl, rfl, rfl⟩

/-! ### What each instruction may write -/

/-- Settles O36: the contrapositive of `exec_sh_of_not_isPower`. -/
theorem onlyPowerRequestsWriteTheShadow : Obligations.OnlyPowerRequestsWriteTheShadow := by
  intro i s t h hsh
  by_contra hi
  exact hsh (exec_sh_of_not_isPower h hi)

theorem rst_notMem_ldacEvents (delay : Delay) (level : Bool) : Event.line .rst level ∉ ldacEvents delay := by
  unfold ldacEvents
  split <;> simp

/-- Settles O37: the events are frames, which drive neither line, or those of an LDAC, which drive the latch line only. -/
theorem onlyLdacDrivesTheLatchAndNoneTheResetLine : Obligations.OnlyLdacDrivesTheLatchAndNoneTheResetLine := by
  intro i s t h
  obtain ⟨sh, es, rs, ho, -, hes, -⟩ := effect_of_exec h
  obtain rfl := Host.Outcome.next.inj ho
  refine ⟨es, by simp, ?_⟩
  obtain ⟨fs, rfl⟩ | ⟨delay, rfl, rfl⟩ := hes
  · simp [emitAll_frames]
  · exact ⟨by simp, rst_notMem_ldacEvents delay, fun hi => absurd rfl (hi delay)⟩

/-! ### What an instruction reads (R23) -/

/-- A meaning that reads nothing but the build parameters and SH: for each value of these, one new SH, one list of events and
one list of results, whatever the rest of the state. -/
def ReadsOnlyConfigAndShadow (m : State → Host.Outcome State Fault Refusal) : Prop :=
  ∀ cfg sh, ∃ sh' es rs, ∀ s : State, s.cfg = cfg → s.sh = sh →
    m s = .next { emitAll { s with sh := sh' } es with results := s.results ++ rs }

theorem reads_abort (r : Result) : ReadsOnlyConfigAndShadow (abort r) :=
  fun _ sh => ⟨sh, [], [r], by rintro s rfl rfl; rfl⟩

theorem reads_completeFrame (r : Resolution → Result) (c a : Nibble) (d : Resolution → Word) :
    ReadsOnlyConfigAndShadow fun s => complete (r s.cfg.resolution) (emitFrame c a (d s.cfg.resolution) s) :=
  fun cfg sh => ⟨sh, [.frame (pack c a (d cfg.resolution))], [r cfg.resolution], by rintro s rfl rfl; rfl⟩

theorem reads_bareFrame (c a : Nibble) (d : Word) : ReadsOnlyConfigAndShadow fun s => .next (emitFrame c a d s) :=
  fun _ sh => ⟨sh, [.frame (pack c a d)], [], by rintro s rfl rfl; simp⟩

theorem reads_powerRequest (list : List PowerEntry) : ReadsOnlyConfigAndShadow (powerRequest list) := by
  intro cfg sh
  cases hv : anyInvalid list with
  | true => exact ⟨sh, [], [.errRange], by rintro s rfl rfl; simp [powerRequest_spec, hv]⟩
  | false =>
    refine ⟨(applyEntries cfg sh list).w, powerFrames (applyEntries cfg sh list), [.ok], ?_⟩
    rintro s rfl rfl
    obtain ⟨sel, lat, rst, he⟩ := emitAll_spec { s with sh := (applyEntries s.cfg s.sh list).w }
      (powerFrames (applyEntries s.cfg s.sh list))
    simp [powerRequest_spec, hv, giveResult, he]

theorem reads_ldac (delay : Delay) : ReadsOnlyConfigAndShadow (execLdac delay) :=
  fun _ sh => ⟨sh, ldacEvents delay, [.ok], by rintro s rfl rfl; simp [execLdac, complete, giveResult]⟩

/-- No instruction reads more than the build parameters and SH. -/
theorem exec_reads (i : Instr) : ReadsOnlyConfigAndShadow (exec i) := by
  cases i with
  | wraw c a d => exact reads_completeFrame (fun _ => .ok) c a fun _ => d
  | setch ch code imm verbose =>
    cases hv : validChannel ch with
    | true =>
      simpa [ReadsOnlyConfigAndShadow, exec, execSetch, hv] using
        reads_completeFrame (fun r => setchResult r code verbose) (setchCommand imm) (channelAddr ch)
          fun r => shape r code
    | false => simpa [ReadsOnlyConfigAndShadow, exec, execSetch, hv] using reads_abort .errRange
  | updch list =>
    cases he : (maskLoop list).e with
    | true => simpa [ReadsOnlyConfigAndShadow, exec, execUpdch, he] using reads_abort .errRange
    | false =>
      simpa [ReadsOnlyConfigAndShadow, exec, execUpdch, he] using
        reads_completeFrame (fun _ => .ok) 0b0010#4 updAddr fun _ => (maskLoop list).m
  | pwr ch up => exact reads_powerRequest [{ ch := ch, up := up }]
  | pwrb list => exact reads_powerRequest list
  | setref ext => exact reads_completeFrame (fun _ => .ok) 0b0111#4 refAddr fun _ => refPayload ext
  | ldac delay => exact reads_ldac delay
  | illegalOp op => exact reads_abort .errOpcode
  | _ => exact reads_bareFrame _ _ _

/-- The same events leave the same level where the registers held the same level (`lineLevel_emitAll`). -/
theorem lineLevel_emitAll_congr {s s' : State} {id : LineId} (h : lineLevel s id = lineLevel s' id) (es : List Event) :
    lineLevel (emitAll s es) id = lineLevel (emitAll s' es) id := by
  rw [lineLevel_emitAll, lineLevel_emitAll, h]

/-- Settles O38: by `exec_reads` both states get the same SH, events and results, and the level registers follow the same
events from the same levels. -/
theorem earlierOutputIsNotRead : Obligations.EarlierOutputIsNotRead := by
  intro i s s' t t' hcfg hsh hsel hlat hrst h h'
  obtain ⟨sh, es, rs, hexec⟩ := exec_reads i s'.cfg s'.sh
  obtain rfl := Host.Outcome.next.inj (h.symm.trans (hexec s hcfg hsh))
  obtain rfl := Host.Outcome.next.inj (h'.symm.trans (hexec s' rfl rfl))
  have level (id : LineId) (hid : lineLevel s id = lineLevel s' id) :
      lineLevel (emitAll { s with sh := sh } es) id = lineLevel (emitAll { s' with sh := sh } es) id :=
    lineLevel_emitAll_congr (s := { s with sh := sh }) (s' := { s' with sh := sh }) hid es
  exact ⟨by simp, level .sel hsel, level .lat hlat, level .rst hrst, rs, es, rfl, rfl, by simp, by simp⟩

end Sys2Proof.Machine

/-! PROOF. The statements of spec/20_memory.md: the events and results a step appends, the number of frames of each request,
and the order of a frame's bits on the wire. -/

namespace Sys2Proof

/-! ### The bits of a frame (R35) -/

/-- `fieldBits` lists a field from bit 0 upwards. -/
theorem getElem?_fieldBits {n : Nat} (v : BitVec n) {i : Nat} (hi : i < n) :
    (fieldBits n v)[i]? = some (v.getLsbD i) := by
  induction n generalizing i with
  | zero => omega
  | succ n ih =>
    cases i with
    | zero => rfl
    | succ i =>
      have hi' : i < n := by omega
      simp [fieldBits, ih _ hi', hi', Nat.add_comm]

namespace Machine

theorem length_frameBits (f : Frame) : (frameBits f).length = 24 := by
  rw [frameBits, List.length_reverse, length_fieldBits]

/-- Settles O48: the wire order is `fieldBits` reversed, so that place `j` holds the bit of place `23 - j`. -/
theorem frameBitsAreSentMostSignificantFirst : Obligations.FrameBitsAreSentMostSignificantFirst := by
  intro f
  refine ⟨length_frameBits f, fun j hj => ?_⟩
  have hj' : j < (fieldBits 24 f).length := by rwa [length_fieldBits]
  rw [frameBits, List.getElem?_reverse hj', length_fieldBits]
  exact getElem?_fieldBits f (by omega)

/-! ### What a step appends (R43) -/

@[simp] theorem emitAll_results (s : State) (es : List Event) : (emitAll s es).results = s.results := by
  obtain ⟨sel, lat, rst, h⟩ := emitAll_spec s es
  rw [h]

/-- A request gives one result and a frame row none (`Effect`); both give their events behind the earlier ones. -/
theorem exec_appends {i : Instr} {s t : State} (h : exec i s = .next t) :
    ∃ rs es, t.results = s.results ++ rs ∧ t.events = s.events ++ es ∧ rs.length ≤ 1 := by
  obtain ⟨sh, es, rs, ho, -, -, hrequest, hrow⟩ := effect_of_exec h
  obtain rfl := Host.Outcome.next.inj ho
  refine ⟨rs, es, rfl, by simp, ?_⟩
  cases hi : isRequest i with
  | true =>
    obtain ⟨r, rfl, -⟩ := hrequest hi
    simp
  | false => simp [hrow hi]

/-- Settles O40: of the four things that `step_cases` lets a step do, only a reset and an instruction append. -/
theorem stepAppendsToTheOutput : Obligations.StepAppendsToTheOutput := by
  intro s t h
  obtain ⟨-, rfl⟩ | ⟨rest, -, -, rfl⟩ | ⟨rest, -, rfl⟩ | ⟨p, rest, i, -, -, he, -⟩ := step_cases h
  · exact ⟨[], [], by simp⟩
  · exact ⟨[], resetEvents s.cfg, by simp⟩
  · exact ⟨[], [], by simp⟩
  · exact exec_appends (s := { s with port := rest }) he

/-! ### The frames of a power request (R38, R95) -/

theorem foldl_applyEntry_touches {list : List PowerEntry} (hv : ∀ e ∈ list, e.ch.toNat < 16) (cfg : Config)
    (k : Working) :
    ((list.foldl (applyEntry cfg) k).t0 = true ↔ k.t0 = true ∨ ∃ e ∈ list, e.ch.toNat < 8) ∧
      ((list.foldl (applyEntry cfg) k).t1 = true ↔ k.t1 = true ∨ ∃ e ∈ list, 8 ≤ e.ch.toNat) := by
  induction list generalizing k with
  | nil => simp
  | cons e es ih =>
    obtain ⟨he, hes⟩ := List.forall_mem_cons.mp hv
    obtain ⟨ih0, ih1⟩ := ih hes (applyEntry cfg k e)
    rw [List.foldl_cons, ih0, ih1]
    by_cases h8 : e.ch.toNat < 8
    · simp [applyEntry_bank0 cfg k e h8, h8, show ¬ 8 ≤ e.ch.toNat by omega]
    · have h8' : 8 ≤ e.ch.toNat := by omega
      simp [applyEntry_bank1 cfg k e h8' he, h8, h8']

/-- Entries in range touch exactly the banks of their channels (R94). -/
theorem applyEntries_touches {list : List PowerEntry} (hv : ∀ e ∈ list, e.ch.toNat < 16) (cfg : Config) (sh : Shadow) :
    ((applyEntries cfg sh list).t0 = true ↔ ∃ e ∈ list, e.ch.toNat < 8) ∧
      ((applyEntries cfg sh list).t1 = true ↔ ∃ e ∈ list, 8 ≤ e.ch.toNat) := by
  simpa [applyEntries] using foldl_applyEntry_touches hv cfg { w := sh, t0 := false, t1 := false }

/-- The number of banks that a power list names: the frames it sends where it is in range (R38). -/
def banksNamed (list : List PowerEntry) : Nat :=
  (if ∃ e ∈ list, e.ch.toNat < 8 then 1 else 0) + (if ∃ e ∈ list, 8 ≤ e.ch.toNat then 1 else 0)

theorem banksNamed_singleton (e : PowerEntry) : banksNamed [e] = 1 := by
  by_cases h8 : e.ch.toNat < 8
  · simp [banksNamed, h8]
  · simp [banksNamed, h8, show 8 ≤ e.ch.toNat by omega]

theorem length_framesOf_powerFrames (k : Working) :
    (framesOf (powerFrames k)).length = (if k.t0 = true then 1 else 0) + (if k.t1 = true then 1 else 0) := by
  cases h0 : k.t0 <;> cases h1 : k.t1 <;> simp [powerFrames, powerFrame, framesOf, h0, h1]

theorem length_framesOf_applyEntries {list : List PowerEntry} (hv : anyInvalid list ≠ true) (cfg : Config)
    (sh : Shadow) : (framesOf (powerFrames (applyEntries cfg sh list))).length = banksNamed list := by
  have hrange : ∀ e ∈ list, e.ch.toNat < 16 := by simpa [anyInvalid_iff] using hv
  obtain ⟨h0, h1⟩ := applyEntries_touches hrange cfg sh
  rw [length_framesOf_powerFrames]
  exact congrArg₂ (· + ·) (if_congr h0 rfl rfl) (if_congr h1 rfl rfl)

theorem framesOf_ldacEvents (delay : Delay) : framesOf (ldacEvents delay) = [] := by
  unfold ldacEvents
  split <;> rfl

/-! ### The frames of each request (R38) -/

/-- R38 of an outcome from `s`: its events come behind the earlier ones, an abort has none, and those of a success
are as `P` says. -/
def SendsOnSuccess (P : List Event → Prop) (s : State) (o : Host.Outcome State Fault Refusal) : Prop :=
  ∀ t, o = .next t → ∃ es, t.events = s.events ++ es ∧
    ((∃ r, t.results = s.results ++ [r] ∧ isAbort r = true) → es = []) ∧
    ((∀ r, t.results = s.results ++ [r] → isAbort r = false) → P es)

/-- The events of the requests that send one frame (R38). -/
def OneFrame (es : List Event) : Prop := (framesOf es).length = 1

section SendsOnSuccess
variable {P : List Event → Prop} {s : State} {r : Result}

/-- An abort sends nothing, whatever a success would have sent. -/
theorem sendsOnSuccess_abort (hr : isAbort r = true) : SendsOnSuccess P s (abort r s) := by
  rintro t ⟨⟩
  refine ⟨[], by simp, fun _ => rfl, fun hok => ?_⟩
  simp [hok r rfl] at hr

theorem sendsOnSuccess_complete {sh : Shadow} {es : List Event} (hr : isAbort r = false) (hes : P es) :
    SendsOnSuccess P s (complete r (emitAll { s with sh := sh } es)) := by
  rintro t ⟨⟩
  refine ⟨es, by simp, ?_, fun _ => hes⟩
  rintro ⟨r', hr', ha⟩
  obtain rfl : r = r' := by simpa using hr'
  simp [hr] at ha

theorem sendsOnSuccess_completeFrame {c a : Nibble} {d : Word} (hr : isAbort r = false) :
    SendsOnSuccess OneFrame s (complete r (emitFrame c a d s)) :=
  sendsOnSuccess_complete (sh := s.sh) (es := [.frame (pack c a d)]) hr rfl

/-- A power request sends one frame for each bank its list names (R95). -/
theorem sendsOnSuccess_powerRequest (list : List PowerEntry) :
    SendsOnSuccess (fun es => (framesOf es).length = banksNamed list) s (powerRequest list s) := by
  rw [powerRequest_spec]
  split
  · exact sendsOnSuccess_abort (r := .errRange) rfl
  · next hv => exact sendsOnSuccess_complete rfl (length_framesOf_applyEntries hv s.cfg s.sh)

/-- What `Effect` alone gives: the abort clause, for every instruction. -/
theorem sendsOnSuccess_of_effect {i : Instr} {o : Host.Outcome State Fault Refusal} (h : Effect i s o) :
    SendsOnSuccess (fun _ => True) s o := by
  obtain ⟨sh, es, rs, rfl, -, -, hrequest, hrow⟩ := h
  rintro t ⟨⟩
  refine ⟨es, by simp, ?_, fun _ => trivial⟩
  rintro ⟨r, hr, ha⟩
  obtain rfl : rs = [r] := by simpa using hr
  cases hi : isRequest i with
  | true =>
    obtain ⟨r', hr', habort⟩ := hrequest hi
    obtain rfl : r = r' := by simpa using hr'
    exact (habort ha).2
  | false => simpa using hrow hi

end SendsOnSuccess

theorem isAbort_setchResult (res : Resolution) (code : Word) (verbose : Bool) :
    isAbort (setchResult res code verbose) = false := by
  unfold setchResult
  split <;> rfl

/-- Settles O34: each request aborts, completes with one frame, or sends what its power list or latch pulse says; an illegal
op and the frame rows have no count here. -/
theorem framesPerRequest : Obligations.FramesPerRequest := by
  intro i s t h
  cases i with
  | wraw cmd addr data => exact sendsOnSuccess_completeFrame rfl t h
  | setch ch code imm verbose =>
    suffices hs : SendsOnSuccess OneFrame s (execSetch ch code imm verbose s) from hs t h
    unfold execSetch
    split
    · exact sendsOnSuccess_completeFrame (isAbort_setchResult _ _ _)
    · exact sendsOnSuccess_abort rfl
  | updch list =>
    suffices hs : SendsOnSuccess OneFrame s (execUpdch list s) from hs t h
    simp only [execUpdch]
    split
    · exact sendsOnSuccess_abort rfl
    · exact sendsOnSuccess_completeFrame rfl
  | pwr ch up => exact banksNamed_singleton ⟨ch, up⟩ ▸ sendsOnSuccess_powerRequest [⟨ch, up⟩] t h
  | pwrb list => exact sendsOnSuccess_powerRequest list t h
  | setref ext => exact sendsOnSuccess_completeFrame rfl t h
  | ldac delay =>
    exact sendsOnSuccess_complete (P := fun es => framesOf es = []) (sh := s.sh) rfl (framesOf_ldacEvents delay) t h
  | _ => exact sendsOnSuccess_of_effect (exec_spec _ s) t h

end Machine

end Sys2Proof

/-! PROOF. The statements of spec/30_encoding.md: the two encodings read back, which bits are a well-formed request, and
what the frame rows, the illegal ops and a reset do. -/

namespace Sys2Proof

/-! ### Frame rows (R51, R52, R59): all sixteen at once, through their fields -/

/-- The constructor that `frameInstr` selects is the one with that command code. -/
@[simp] theorem frameFields_frameInstr (c a : Nibble) (d : Word) : frameFields (frameInstr c a d) = some (c, a, d) := by
  obtain ⟨k⟩ := c
  fin_cases k <;> rfl

theorem eq_frameInstr_of_frameFields {i : Instr} {c a : Nibble} {d : Word} (h : frameFields i = some (c, a, d)) :
    i = frameInstr c a d := by
  cases i <;> cases h <;> rfl

theorem encode_of_frameFields {i : Instr} {c a : Nibble} {d : Word} (h : frameFields i = some (c, a, d)) :
    encode i = .frame (pack c a d) := by
  cases i <;> cases h <;> rfl

@[simp] theorem decodeFrame_pack (c a : Nibble) (d : Word) : decodeFrame (pack c a d) = frameInstr c a d := by
  simp [decodeFrame]

/-- A frame row reads back, because its frame's fields are its own (R59). -/
theorem decode_encode_of_frameFields {i : Instr} {c a : Nibble} {d : Word} (h : frameFields i = some (c, a, d)) :
    decode (encode i) = .ok i := by
  rw [encode_of_frameFields h, decode, decodeFrame_pack, ← eq_frameInstr_of_frameFields h]

/-- Settles O2: the fields of `decodeFrame f` are those of `f`, and packing them gives `f` back. -/
theorem everyFrameReadsBackAsItsFields : Obligations.EveryFrameReadsBackAsItsFields := by
  intro f
  have hfields : frameFields (decodeFrame f) = some (frameCommand f, frameAddress f, frameData f) :=
    frameFields_frameInstr _ _ _
  refine ⟨hfields, ?_⟩
  rw [encode_of_frameFields hfields, pack_fields]

/-! ### The op of a request (R48, R56) -/

theorem legalOp_eq_true_iff (op : Nibble) : legalOp op = true ↔ 1 ≤ op.toNat ∧ op.toNat ≤ 7 := by
  simp [legalOp]

theorem legalOp_eq_false_iff (op : Nibble) : legalOp op = false ↔ op = 0x0#4 ∨ 8 ≤ op.toNat := by
  rw [← Bool.not_eq_true, legalOp_eq_true_iff]
  bv_omega

/-- The operands of an op that R48 does not assign are not examined (R110). -/
theorem takeOperands_of_not_legalOp {op : Nibble} (h : legalOp op = false) (bits : List Bool) :
    takeOperands op bits = some (.illegalOp op) := by
  rw [legalOp_eq_false_iff] at h
  unfold takeOperands
  split
  case h_8 => rfl
  all_goals bv_omega

/-- What a reader answers, if anything, is an instruction of `op`. -/
def AnswersOp (op : Nibble) (o : Option Instr) : Prop :=
  ∀ i, o = some i → Machine.requestOp i = some op

theorem answersOp_some {op k : Nibble} {i : Instr} (hi : Machine.requestOp i = some k) (hop : op.toNat = k.toNat) :
    AnswersOp op (some i) := by
  rintro _ ⟨⟩
  rw [hi, BitVec.eq_of_toNat_eq hop]

/-- Reading a field first does not matter to the op of the answer. -/
theorem answersOp_bind {α : Type} {op : Nibble} {o : Option α} {f : α → Option Instr}
    (h : ∀ x, AnswersOp op (f x)) : AnswersOp op (o.bind f) := by
  intro i hi
  obtain ⟨x, -, hx⟩ := Option.bind_eq_some_iff.mp hi
  exact h x i hx

/-- The reader of each op's format reads its fields and then answers an instruction of that op. -/
theorem answersOp_takeOperands (op : Nibble) (bits : List Bool) : AnswersOp op (takeOperands op bits) := by
  unfold takeOperands
  split
  case h_1 hop => exact answersOp_bind fun _ => answersOp_bind fun _ => answersOp_bind fun _ => answersOp_some rfl hop
  case h_2 hop =>
    exact answersOp_bind fun _ => answersOp_bind fun _ => answersOp_bind fun _ => answersOp_bind fun _ =>
      answersOp_some rfl hop
  case h_3 hop => exact answersOp_bind fun _ => answersOp_some rfl hop
  case h_4 hop => exact answersOp_bind fun _ => answersOp_some rfl hop
  case h_5 hop => exact answersOp_bind fun _ => answersOp_some rfl hop
  case h_6 hop => exact answersOp_bind fun _ => answersOp_some rfl hop
  case h_7 hop => exact answersOp_bind fun _ => answersOp_some rfl hop
  case h_8 => exact answersOp_some rfl rfl

section OpField
variable {bits rest : List Bool} {op : Nibble}

/-- What decodes was answered by the reader of the op's format. -/
theorem takeOperands_of_decode {i : Instr} (hop : takeField 4 bits = some (op, rest))
    (h : decode (.request bits) = .ok i) : takeOperands op rest = some i := by
  cases ht : takeOperands op rest with
  | none => simp [decode, decodeRequest, hop, ht] at h
  | some j => simpa [decode, decodeRequest, hop, ht] using h

theorem decode_of_not_legalOp (hop : takeField 4 bits = some (op, rest)) (h : legalOp op = false) :
    decode (.request bits) = .ok (.illegalOp op) := by
  simp [decode, decodeRequest, hop, takeOperands_of_not_legalOp h]

end OpField

/-- Settles O5: `answersOp_takeOperands` for what decodes, and no op that R48 leaves out has operands to read. -/
theorem opFieldSelectsTheOperation : Obligations.OpFieldSelectsTheOperation := fun _ rest op hop =>
  ⟨fun i hi => answersOp_takeOperands op rest i (takeOperands_of_decode hop hi), decode_of_not_legalOp hop⟩

/-! ### Round trip (R48 to R52) -/

/-- An illegal request is its op alone, read back with no operands (R56). -/
theorem decode_encode_illegalOp {op : Nibble} (h : legalOp op = false) :
    decode (encode (.illegalOp op)) = .ok (.illegalOp op) :=
  decode_of_not_legalOp (takeField_fieldBits_nil 4 op) h

/-- Settles O1: each request format reads back (for the lists, `takeList_listBits`, by induction on the list), an illegal
op decodes with nothing behind it, and a frame row is the one its three fields name. -/
theorem decodeOfEncodeIsTheInstruction : Obligations.DecodeOfEncodeIsTheInstruction := by
  intro i hi
  cases i with
  | wraw cmd addr data => exact decode_encode_wraw cmd addr data
  | setch ch code imm verbose => exact decode_encode_setch ch code imm verbose
  | updch list => exact decode_encode_updch list
  | pwr ch up => exact decode_encode_pwr ch up
  | pwrb list => exact decode_encode_pwrb list
  | setref ext => exact decode_encode_setref ext
  | ldac delay => exact decode_encode_ldac delay
  | illegalOp op => exact decode_encode_illegalOp (by simpa [Instr.accepted] using hi)
  | _ => exact decode_encode_of_frameFields rfl

/-! ### Well-formed requests (R62) -/

theorem accepted_of_wellFormed {i : Instr} (h : i.wellFormed = true) : i.accepted = true := by
  cases i with
  | illegalOp op => simp [Instr.wellFormed] at h
  | _ => rfl

theorem wellFormedRequest_of_decode {bits : List Bool} {i : Instr} (h : decode (.request bits) = .ok i) :
    wellFormedRequest bits = true ↔ i.wellFormed = true ∧ encode i = .request bits := by
  have h' : decodeRequest bits = .ok i := h
  simp [wellFormedRequest, h']

/-- A well-formed request decodes, and to an instruction whose record it is. -/
theorem exists_of_wellFormedRequest {bits : List Bool} (h : wellFormedRequest bits = true) :
    ∃ i : Instr, i.wellFormed = true ∧ encode i = .request bits := by
  cases hd : decode (.request bits) with
  | ok i => exact ⟨i, (wellFormedRequest_of_decode hd).mp h⟩
  | error e =>
    have hd' : decodeRequest bits = .error e := hd
    simp [wellFormedRequest, hd'] at h

theorem wellFormedRequest_of_encode {bits : List Bool} {i : Instr} (hi : i.wellFormed = true)
    (he : encode i = .request bits) : wellFormedRequest bits = true := by
  have hd : decode (.request bits) = .ok i := he ▸ decodeOfEncodeIsTheInstruction i (accepted_of_wellFormed hi)
  exact (wellFormedRequest_of_decode hd).mpr ⟨hi, he⟩

/-- A request with an op that R48 does not assign decodes, but to `illegalOp`, which is ill-formed (R62). -/
theorem wellFormedRequest_of_not_legalOp {bits rest : List Bool} {op : Nibble}
    (hop : takeField 4 bits = some (op, rest)) (h : legalOp op = false) : wellFormedRequest bits = false := by
  rw [← Bool.not_eq_true, wellFormedRequest_of_decode (decode_of_not_legalOp hop h)]
  simp [Instr.wellFormed]

/-- Settles O51: by the round trip of O1 the record of a well-formed instruction decodes to it; a request with an op
outside 0x1 to 0x7 decodes to `illegalOp`, which is accepted and ill-formed. -/
theorem wellFormedRequestsAreTheRecordsOfAssignedOps : Obligations.WellFormedRequestsAreTheRecordsOfAssignedOps := by
  refine ⟨fun bits => ⟨exists_of_wellFormedRequest, fun ⟨i, hi, he⟩ => wellFormedRequest_of_encode hi he⟩,
    fun bits rest op hop => ⟨fun hw => ?assigned, fun hout => ?illegal⟩⟩
  case assigned =>
    by_contra hout
    have hlegal : legalOp op = false := by rwa [← Bool.not_eq_true, legalOp_eq_true_iff]
    simp [wellFormedRequest_of_not_legalOp hop hlegal] at hw
  case illegal =>
    have hlegal : legalOp op = false := (legalOp_eq_false_iff op).mpr hout
    exact ⟨wellFormedRequest_of_not_legalOp hop hlegal, .illegalOp op, decode_of_not_legalOp hop hlegal, rfl,
      by simp [Instr.accepted, hlegal]⟩

/-! ### Sample words -/

/-- Settles O4: `decode` evaluated on the five words. -/
theorem sampleWordsDecodeAsTheTableSays : Obligations.SampleWordsDecodeAsTheTableSays :=
  ⟨by decide, by decide, by decide, by decide, by decide⟩

namespace Machine

/-! ### What frame rows do (R58, R64, R68) -/

/-- A frame row hands its packed fields over, whatever its command code. -/
theorem exec_of_frameFields {i : Instr} {c a : Nibble} {d : Word} (h : frameFields i = some (c, a, d)) (s : State) :
    exec i s = .next (emitFrame c a d s) := by
  cases i <;> cases h <;> rfl

/-- Settles O23: `exec_of_frameFields` for the five implemented codes. -/
theorem implementedFramesAreSentUnchanged : Obligations.ImplementedFramesAreSentUnchanged := fun _ _ s =>
  ⟨exec_of_frameFields rfl s, exec_of_frameFields rfl s, exec_of_frameFields rfl s, exec_of_frameFields rfl s,
    exec_of_frameFields rfl s⟩

/-- Settles O24: `exec_of_frameFields` for the other eleven codes. -/
theorem reservedFramesAreSentUnchanged : Obligations.ReservedFramesAreSentUnchanged := fun _ _ s =>
  ⟨exec_of_frameFields rfl s, exec_of_frameFields rfl s, exec_of_frameFields rfl s, exec_of_frameFields rfl s,
    exec_of_frameFields rfl s, exec_of_frameFields rfl s, exec_of_frameFields rfl s, exec_of_frameFields rfl s,
    exec_of_frameFields rfl s, exec_of_frameFields rfl s, exec_of_frameFields rfl s⟩

/-- Settles O25: both hand over the same frame, because packed fields read back as themselves. -/
theorem wrawIsItsFrameWithAResult : Obligations.WrawIsItsFrameWithAResult := by
  intro cmd addr data s t h
  have hframe : exec (decodeFrame (pack cmd addr data)) s = .next (emitFrame cmd addr data s) :=
    exec_of_frameFields (by simp) s
  obtain rfl := Host.Outcome.next.inj (hframe.symm.trans h)
  rfl

/-! ### What typed requests send (R57) -/

theorem framesOf_append (es es' : List Event) : framesOf (es ++ es') = framesOf es ++ framesOf es' := by
  induction es with
  | nil => rfl
  | cons e es ih => cases e <;> simp [framesOf, ih]

/-- The commands that R52 calls implemented are the five that R57 allows. -/
theorem mem_of_implemented {c : Nibble} (h : commandStatus c = .implemented) :
    c ∈ [0b0001#4, 0b0010#4, 0b0011#4, 0b0100#4, 0b0111#4] := by
  decide +revert

/-- Every frame of the list has an implemented command code. -/
def ImplementedOnly (es : List Event) : Prop :=
  ∀ f ∈ framesOf es, commandStatus (frameCommand f) = .implemented

theorem implementedOnly_nil : ImplementedOnly [] := by
  simp [ImplementedOnly, framesOf]

theorem implementedOnly_frame {c : Nibble} (hc : commandStatus c = .implemented) (a : Nibble) (d : Word) :
    ImplementedOnly [.frame (pack c a d)] := by
  simpa [ImplementedOnly, framesOf] using hc

theorem implementedOnly_append {es es' : List Event} (h : ImplementedOnly es) (h' : ImplementedOnly es') :
    ImplementedOnly (es ++ es') := by
  intro f hf
  rw [framesOf_append, List.mem_append] at hf
  exact hf.elim (h f) (h' f)

theorem implementedOnly_powerFrames (k : Working) : ImplementedOnly (powerFrames k) := by
  have hbank (touched : Bool) (b : Bank) : ImplementedOnly (if touched then [powerFrame k.w b] else []) := by
    cases touched with
    | true => exact implementedOnly_frame rfl _ _
    | false => exact implementedOnly_nil
  exact implementedOnly_append (hbank k.t0 .bank0) (hbank k.t1 .bank1)

theorem sendsImplementedOnly_powerRequest (list : List PowerEntry) (s : State) :
    SendsOnSuccess ImplementedOnly s (powerRequest list s) := by
  rw [powerRequest_spec]
  split
  · exact sendsOnSuccess_abort (r := .errRange) rfl
  · exact sendsOnSuccess_complete rfl (implementedOnly_powerFrames _)

theorem sendsImplementedOnly_completeFrame {c a : Nibble} {d : Word} {r : Result} {s : State} (hr : isAbort r = false)
    (hc : commandStatus c = .implemented) :
    SendsOnSuccess ImplementedOnly s (complete r (emitFrame c a d s)) :=
  sendsOnSuccess_complete (sh := s.sh) hr (implementedOnly_frame hc a d)

theorem sendsImplementedOnly_of_isTyped {i : Instr} (hi : isTyped i = true) (s : State) :
    SendsOnSuccess ImplementedOnly s (exec i s) := by
  cases i with
  | setch ch code imm verbose =>
    simp only [exec, execSetch]
    split
    · exact sendsImplementedOnly_completeFrame (isAbort_setchResult _ _ _) (by cases imm <;> rfl)
    · exact sendsOnSuccess_abort rfl
  | updch list =>
    simp only [exec, execUpdch]
    split
    · exact sendsOnSuccess_abort rfl
    · exact sendsImplementedOnly_completeFrame rfl rfl
  | pwr ch up => exact sendsImplementedOnly_powerRequest [⟨ch, up⟩] s
  | pwrb list => exact sendsImplementedOnly_powerRequest list s
  | setref ext => exact sendsImplementedOnly_completeFrame rfl rfl
  | _ => simp [isTyped] at hi

/-- What holds of the events of a success and of no events holds of the events of any outcome. -/
theorem SendsOnSuccess.exists_events {P : List Event → Prop} {s t : State} {o : Host.Outcome State Fault Refusal}
    (h : SendsOnSuccess P s o) (hnil : P []) (ho : o = .next t) : ∃ es, t.events = s.events ++ es ∧ P es := by
  obtain ⟨es, hes, habort, hok⟩ := h t ho
  by_cases ha : ∃ r, t.results = s.results ++ [r] ∧ isAbort r = true
  · exact ⟨es, hes, (habort ha).symm ▸ hnil⟩
  · exact ⟨es, hes, hok (by simpa using ha)⟩

/-- Settles O35: each frame of a typed request is packed with an implemented code, and LDAC's events are none. -/
theorem typedRequestsSendImplementedCommands : Obligations.TypedRequestsSendImplementedCommands := by
  refine ⟨fun i s t hi h => ?typed, fun delay s t h => ?ldac⟩
  case typed =>
    obtain ⟨es, hes, himpl⟩ := (sendsImplementedOnly_of_isTyped hi s).exists_events implementedOnly_nil h
    exact ⟨es, hes, fun f hf => mem_of_implemented (himpl f hf)⟩
  case ldac =>
    obtain rfl := Host.Outcome.next.inj h
    simp [framesOf_append, framesOf_ldacEvents]

/-! ### ERR_OPCODE (R56, R62, R110) -/

/-- Settles O21: `execIllegalOp` aborts without reading the op. -/
theorem illegalOpAborts : Obligations.IllegalOpAborts := fun _ _ => rfl

/-- The outcome gives one result code, and neither ERR_OPCODE nor ERR_REF_UNDEF (R107). -/
def GivesWellFormedResult (s : State) (o : Host.Outcome State Fault Refusal) : Prop :=
  ∀ t, o = .next t → ∃ r ∈ [Result.ok, .okWarnTrunc, .errRange], t.results = s.results ++ [r]

theorem givesWellFormedResult_complete {r : Result} {s u : State} (hr : r ∈ [Result.ok, .okWarnTrunc, .errRange])
    (hu : u.results = s.results) : GivesWellFormedResult s (complete r u) := by
  rintro t ⟨⟩
  exact ⟨r, hr, by simp [hu]⟩

theorem givesWellFormedResult_errRange (s : State) : GivesWellFormedResult s (abort .errRange s) :=
  givesWellFormedResult_complete (by decide) rfl

theorem givesWellFormedResult_powerRequest (list : List PowerEntry) (s : State) :
    GivesWellFormedResult s (powerRequest list s) := by
  rw [powerRequest_spec]
  split
  · exact givesWellFormedResult_errRange s
  · exact givesWellFormedResult_complete (r := .ok) (by decide) (by simp)

theorem setchResult_mem (res : Resolution) (code : Word) (verbose : Bool) :
    setchResult res code verbose ∈ [Result.ok, .okWarnTrunc, .errRange] := by
  unfold setchResult
  split <;> decide

theorem givesWellFormedResult_of_isRequest {i : Instr} (hi : i.wellFormed = true) (hreq : isRequest i = true)
    (s : State) : GivesWellFormedResult s (exec i s) := by
  cases i with
  | wraw cmd addr data => exact givesWellFormedResult_complete (by decide) rfl
  | setch ch code imm verbose =>
    simp only [exec, execSetch]
    split
    · exact givesWellFormedResult_complete (setchResult_mem _ _ _) rfl
    · exact givesWellFormedResult_errRange s
  | updch list =>
    simp only [exec, execUpdch]
    split
    · exact givesWellFormedResult_errRange s
    · exact givesWellFormedResult_complete (by decide) rfl
  | pwr ch up => exact givesWellFormedResult_powerRequest [⟨ch, up⟩] s
  | pwrb list => exact givesWellFormedResult_powerRequest list s
  | setref ext => exact givesWellFormedResult_complete (by decide) rfl
  | ldac delay => exact givesWellFormedResult_complete (by decide) (by simp)
  | illegalOp op => simp [Instr.wellFormed] at hi
  | _ => simp [isRequest, frameFields] at hreq

theorem results_ne_errOpcode_of_wellFormed {i : Instr} {s t : State} (h : exec i s = .next t)
    (hi : i.wellFormed = true) : t.results ≠ s.results ++ [.errOpcode] := by
  cases hreq : isRequest i with
  | true =>
    obtain ⟨r, hr, ht⟩ := givesWellFormedResult_of_isRequest hi hreq s t h
    rw [ht]
    intro heq
    obtain rfl : r = .errOpcode := by simpa using heq
    simp at hr
  | false =>
    obtain ⟨-, hrow⟩ := everyRequestGivesOneResult i s t h
    simp [hrow hreq]

/-- Settles O52: the one ill-formed constructor is `illegalOp`, and no other ends with ERR_OPCODE. -/
theorem opcodeErrorExactlyForAnIllFormedRequest : Obligations.OpcodeErrorExactlyForAnIllFormedRequest := by
  intro i s t h
  refine ⟨fun hr => ?_, fun hi => ?_⟩
  · by_contra hi
    exact results_ne_errOpcode_of_wellFormed h (by simpa using hi) hr
  · cases i with
    | illegalOp op =>
      obtain rfl := Host.Outcome.next.inj h
      rfl
    | _ => simp [Instr.wellFormed] at hi

/-! ### Reset (R129) -/

/-- Settles O45: the reset's arm of `step`, where the transport lets it pass, and what `performReset` leaves. -/
theorem resetClearsTheShadowAndPulsesTheResetLine : Obligations.ResetClearsTheShadowAndPulsesTheResetLine := by
  intro s rest hp hs
  have hstep : step s = withTransport s (.next (performReset { s with port := rest })) := by simp only [step, hp]
  rw [hstep, withTransport_running s hs, performReset_eq]
  rfl

end Machine

end Sys2Proof

/-! PROOF. The statements of spec/40_frame_encoder.md: how a frame is packed, how it reaches the wire and the transport, and
how a raw write and an illegal request end. -/

namespace Sys2Proof

/-! ### The packer (R63) -/

/-- The header byte is the command in the high half, or'ed with the address in the low half. -/
theorem header_eq_shiftLeft_or (c a : Nibble) : c ++ a = (c.setWidth 8 <<< 4) ||| a.setWidth 8 := by
  simpa using BitVec.setWidth_append_eq_shiftLeft_setWidth_or (b := c) (b' := a) (w'' := 8)

section PackedBytes
variable (c a : Nibble) (d : Word)

@[simp] theorem headerByte_pack : (pack c a d).extractLsb' 16 8 = c ++ a :=
  BitVec.extractLsb'_append_eq_left

@[simp] theorem highByte_pack : (pack c a d).extractLsb' 8 8 = d.extractLsb' 8 8 :=
  BitVec.extractLsb'_append_eq_of_add_le (by decide)

@[simp] theorem lowByte_pack : (pack c a d).extractLsb' 0 8 = d.extractLsb' 0 8 :=
  BitVec.extractLsb'_append_eq_of_add_le (by decide)

end PackedBytes

/-- The triple can be read off its frame (R59), so that no two triples share one. -/
theorem pack_injective {c c' a a' : Nibble} {d d' : Word} (h : pack c a d = pack c' a' d') :
    c = c' ∧ a = a' ∧ d = d' := by
  have hc := congrArg frameCommand h
  have ha := congrArg frameAddress h
  have hd := congrArg frameData h
  rw [frameCommand_pack, frameCommand_pack] at hc
  rw [frameAddress_pack, frameAddress_pack] at ha
  rw [frameData_pack, frameData_pack] at hd
  exact ⟨hc, ha, hd⟩

/-- Settles O3: the three bytes of a packed frame, and `pack_injective`. -/
theorem packLaysOutTheFieldsInjectively : Obligations.PackLaysOutTheFieldsInjectively := by
  refine ⟨fun cmd addr data => ⟨rfl, ?header, highByte_pack cmd addr data, lowByte_pack cmd addr data⟩,
    fun _ _ _ _ _ _ => pack_injective⟩
  case header => rw [headerByte_pack, header_eq_shiftLeft_or]

namespace Machine

/-! ### A frame on the wire (R34, R68, R123) -/

/-- A frame's wire steps: its bytes, high byte first, inside one low pulse of the select line. -/
theorem wireExpansion_frame (f : Frame) :
    wireExpansion (.frame f) =
      [.line .sel false, .byte (f.extractLsb' 16 8), .byte (f.extractLsb' 8 8), .byte (f.extractLsb' 0 8),
        .line .sel true] := rfl

theorem wireExpansion_pack (c a : Nibble) (d : Word) :
    wireExpansion (.frame (pack c a d)) =
      [.line .sel false, .byte (c ++ a), .byte (d.extractLsb' 8 8), .byte (d.extractLsb' 0 8), .line .sel true] := by
  rw [wireExpansion_frame, headerByte_pack, highByte_pack, lowByte_pack]

/-- Settles O47: `emit_frame` leaves the select line high, and `wireExpansion_pack` gives the steps in between. -/
theorem frameExpandsToOneSelectPulse : Obligations.FrameExpandsToOneSelectPulse := by
  intro cmd addr data s
  refine ⟨?_, wireExpansion_pack cmd addr data⟩
  rw [emit_frame]

/-- A frame's transport calls: those of its wire steps, inside one transaction. -/
theorem transportCalls_frame (cfg : Config) (f : Frame) :
    transportCalls cfg (.frame f) =
      [.configureBus cfg.spiMode, .beginTransaction] ++ (wireExpansion (.frame f)).map wireCall ++ [.endTransaction] :=
  rfl

/-- Settles O49: the calls of a frame are those of its five wire steps; every other event is one call. -/
theorem eventsMapToTransportCalls : Obligations.EventsMapToTransportCalls := by
  intro cfg f id level us ms
  refine ⟨?frame, rfl, rfl, rfl⟩
  case frame =>
    rw [transportCalls_frame, wireExpansion_frame]
    rfl

/-! ### Raw write (R73) -/

theorem exec_wraw (c a : Nibble) (d : Word) (s : State) :
    exec (.wraw c a d) s = complete .ok (emitFrame c a d s) := rfl

/-- Settles O10: a raw write emits the packed frame and completes; neither step has SH among what it writes. -/
theorem wrawSendsTheFrameAsGiven : Obligations.WrawSendsTheFrameAsGiven := by
  intro cmd addr data s
  refine ⟨rfl, ?_⟩
  rw [exec_wraw, emitFrame_eq]
  rfl

/-! ### Illegal requests at the port (R110, R141) -/

/-- A step without events ends, with a stalled transport too. -/
theorem withTransport_eventless {s t : State} (h : t.events = s.events) : withTransport s (.next t) = .next t := by
  simp [withTransport_next, h]

/-- Settles O22: the request decodes to `illegalOp` whatever follows its op, and the abort has no event to wait for. -/
theorem illegalRequestEndsWhateverItsOperands : Obligations.IllegalRequestEndsWhateverItsOperands := by
  intro s bits after op rest hop hillegal hp
  have hd : decode (.request bits) = .ok (.illegalOp op) :=
    decode_of_not_legalOp hop ((legalOp_eq_false_iff op).mpr hillegal)
  rw [step_of_decode hp hd, illegalOpAborts]
  exact withTransport_eventless rfl

end Machine

end Sys2Proof

/-! PROOF. The statements of spec/41_channel_ops.md: the shaping of codes, and SETCH, UPDCH and LDAC. -/

namespace Sys2Proof.Machine

/-! ### Shaping (R78, R79) -/

/-- The model tests bits 15:12, which are clear exactly where the code is at most 0x0FFF. -/
theorem truncated_res12_iff (code : Word) : truncated .res12 code = true ↔ 0x0FFF < code.toNat := by
  have hnibble : (code.extractLsb' 12 4).toNat = code.toNat / 4096 := by
    have hlt : code.toNat / 4096 < 16 := by omega
    simp [BitVec.extractLsb'_toNat, Nat.shiftRight_eq_div_pow, Nat.mod_eq_of_lt hlt]
  have hclear : code.toNat / 4096 = 0 ↔ code.toNat ≤ 0x0FFF := by omega
  simp [truncated, BitVec.toNat_eq, hnibble, hclear]

/-- At RES = 16 no code is too wide (D3). -/
@[simp] theorem truncated_res16 (code : Word) : truncated .res16 code = false := rfl

theorem shape_res12 (code : Word) : shape .res12 code = code.extractLsb' 0 12 ++ 0#4 :=
  BitVec.shiftLeft_eq_concat_of_lt (by decide)

@[simp] theorem shape_res16 (code : Word) : shape .res16 code = code :=
  BitVec.shiftLeft_zero code

/-- Settles O33: truncation and shaping at each of the two resolutions. -/
theorem shapingKeepsTheLowResolutionBits : Obligations.ShapingKeepsTheLowResolutionBits := fun code =>
  ⟨truncated_res12_iff code, truncated_res16 code, shape_res12 code, shape_res16 code⟩

/-! ### SETCH (R80, R81) -/

/-- Both resolutions in one equation. -/
theorem shape_eq_ite (r : Resolution) (code : Word) :
    shape r code = if r = .res12 then code.extractLsb' 0 12 ++ 0#4 else code := by
  cases r with
  | res12 => exact shape_res12 code
  | res16 => exact shape_res16 code

/-- R80: the warning asks for all three, a narrow build, a wide code and `verbose`. -/
theorem setchResult_eq_ite (r : Resolution) (code : Word) (verbose : Bool) :
    setchResult r code verbose =
      if r = .res12 ∧ 0x0FFF < code.toNat ∧ verbose = true then .okWarnTrunc else .ok := by
  cases r with
  | res12 => simp only [setchResult, Bool.and_eq_true, truncated_res12_iff, true_and]
  | res16 => rfl

section Setch
variable {ch : Channel} (code : Word) (imm verbose : Bool) (s : State)

theorem exec_setch_of_lt (h : ch.toNat < 16) :
    exec (.setch ch code imm verbose) s =
      complete (setchResult s.cfg.resolution code verbose)
        (emitFrame (setchCommand imm) (channelAddr ch) (shape s.cfg.resolution code) s) :=
  if_pos ((validChannel_iff ch).mpr h)

theorem exec_setch_of_ge (h : 16 ≤ ch.toNat) : exec (.setch ch code imm verbose) s = abort .errRange s :=
  if_neg (mt (validChannel_iff ch).mp (by omega))

end Setch

/-- Settles O11: the two branches of the channel check; a valid channel's frame and result are read off `shape_eq_ite` and
`setchResult_eq_ite`. -/
theorem setchSendsTheShapedCode : Obligations.SetchSendsTheShapedCode := by
  intro ch code imm verbose s
  refine ⟨rfl, fun hvalid => ?valid, fun hbad => ?bad⟩
  case valid =>
    rw [exec_setch_of_lt code imm verbose s hvalid, shape_eq_ite, setchResult_eq_ite, emitFrame_eq]
    rfl
  case bad => exact exec_setch_of_ge code imm verbose s hbad

/-! ### The mask of UPDCH (R83, R84) -/

theorem getLsbD_maskBit (ch : Channel) {j : Nat} (hj : j < 16) : (maskBit ch).getLsbD j = decide (ch.toNat = j) := by
  have hpow : maskBit ch = BitVec.twoPow 16 ch.toNat := rfl
  simp [hpow, hj, eq_comm]

/-- One entry sets its own bit of the mask; an entry out of range names none of the 16. -/
theorem getLsbD_maskStep (acc : MaskAcc) (ch : Channel) {j : Nat} (hj : j < 16) :
    (maskStep acc ch).m.getLsbD j = (acc.m.getLsbD j || decide (ch.toNat = j)) := by
  by_cases hch : ch.toNat < 16
  · simp [maskStep, hch, getLsbD_maskBit ch hj]
  · simp [maskStep, hch, show ch.toNat ≠ j by omega]

/-- The mask has the bits of the channels listed, whether or not the list has bad entries as well. -/
theorem getLsbD_maskLoop (list : List Channel) {j : Nat} (hj : j < 16) :
    (maskLoop list).m.getLsbD j = list.any fun ch => decide (ch.toNat = j) := by
  suffices hfold : ∀ acc : MaskAcc,
      (list.foldl maskStep acc).m.getLsbD j = (acc.m.getLsbD j || list.any fun ch => decide (ch.toNat = j)) by
    simpa [maskLoop] using hfold { m := 0x0000#16, e := false }
  induction list with
  | nil => simp
  | cons c cs ih =>
    intro acc
    rw [List.foldl_cons, ih, getLsbD_maskStep acc c hj, List.any_cons, Bool.or_assoc]

/-- Mask and error flag both ask only which channels the list has. -/
theorem maskLoop_congr {l l' : List Channel} (h : ∀ c, c ∈ l ↔ c ∈ l') : maskLoop l = maskLoop l' := by
  have hm : (maskLoop l).m = (maskLoop l').m := by
    apply BitVec.eq_of_getLsbD_eq
    intro j hj
    rw [getLsbD_maskLoop l hj, getLsbD_maskLoop l' hj, Bool.eq_iff_iff]
    simp [h]
  have he : (maskLoop l).e = (maskLoop l').e := by
    rw [Bool.eq_iff_iff, maskLoop_e, maskLoop_e]
    simp [h]
  exact congrArg₂ MaskAcc.mk hm he

/-! ### UPDCH (R84) -/

theorem exec_updch (list : List Channel) (s : State) :
    exec (.updch list) s =
      if (maskLoop list).e = true then abort .errRange s
      else complete .ok (emitFrame 0b0010#4 updAddr (maskLoop list).m s) := rfl

/-- Settles O12: the mask is `maskLoop`'s (`getLsbD_maskLoop`), and its error flag (`maskLoop_e`) selects the branch. -/
theorem updchSendsTheMaskOfTheListedChannels : Obligations.UpdchSendsTheMaskOfTheListedChannels := by
  intro list s
  refine ⟨rfl, fun hvalid => ⟨(maskLoop list).m, fun c hc => getLsbD_maskLoop list hc, ?valid⟩, fun hbad => ?bad⟩
  case valid =>
    have he : ¬ (maskLoop list).e = true := by simpa [maskLoop_e] using hvalid
    rw [exec_updch, if_neg he, emitFrame_eq]
    rfl
  case bad =>
    rw [exec_updch, if_pos ((maskLoop_e list).mpr hbad)]
    rfl

/-- Settles O13: UPDCH reads its list through `maskLoop` alone. -/
theorem updchReadsItsListAsASet : Obligations.UpdchReadsItsListAsASet := by
  intro l l' s h
  rw [exec_updch, exec_updch, maskLoop_congr h]

/-! ### LDAC (R87) -/

theorem ldacEvents_of_pos {delay : Delay} (h : 0 < delay.toNat) :
    ldacEvents delay = [.line .lat false, .waitUs delay, .line .lat true] := by
  simp [ldacEvents, h]

/-- No wait where the delay is 0 (D14). -/
theorem ldacEvents_zero : ldacEvents 0#32 = [.line .lat false, .line .lat true] := rfl

theorem exec_ldac (delay : Delay) (s : State) :
    exec (.ldac delay) s =
      .next { s with latQ := true, events := s.events ++ ldacEvents delay, results := s.results ++ [.ok] } := by
  have hemit : exec (.ldac delay) s = complete .ok (emitAll s (ldacEvents delay)) := rfl
  rw [hemit, emitAll_ldacEvents]
  rfl

/-- Settles O20: `exec_ldac` with the event list of each kind of delay. -/
theorem ldacPulsesTheLatchLine : Obligations.LdacPulsesTheLatchLine := by
  intro delay s
  refine ⟨rfl, fun hpos => ?wait, ?noWait⟩
  case wait => rw [exec_ldac, ldacEvents_of_pos hpos]
  case noWait => rw [exec_ldac, ldacEvents_zero]

end Sys2Proof.Machine

/-! PROOF. The statements of spec/42_power.md: what a power list leaves in the shadow words, and the power requests. -/

namespace Sys2Proof.Machine

/-! ### A pair written by replacement and by OR (R94, R97) -/

theorem readPair_or (v w : Word) (p : Nat) : readPair (v ||| w) p = readPair v p ||| readPair w p :=
  BitVec.extractLsb'_or

/-- A pair moved to its position is that pair written into the zero word. -/
theorem setWidth_shiftLeft_eq_writePair (p : Nat) (v : BitVec 2) : v.setWidth 16 <<< p = writePair 0#16 p v := by
  simp [writePair]

/-- OR-ing a pair in replaces it exactly where the old pair has no bit outside the new one. -/
theorem writePair_eq_or {w : Word} {k : Nat} {v : BitVec 2} (hk : k < 8) (h : readPair w (2 * k) ||| v = v) :
    writePair w (2 * k) v = w ||| (v.setWidth 16 <<< (2 * k)) := by
  rw [setWidth_shiftLeft_eq_writePair]
  refine word_ext_pairs fun j _ => ?_
  rw [readPair_or]
  by_cases hjk : j = k
  · subst hjk
    rw [readPair_writePair_same w j v hk, readPair_writePair_same 0#16 j v hk, h]
  · rw [readPair_writePair_other w j k v hk hjk, readPair_writePair_other 0#16 j k v hk hjk]
    simp [readPair]

/-- Settles O17: a legal pair is 0b00 or PD_PATTERN itself, and OR-ing PD_PATTERN into either gives PD_PATTERN. -/
theorem settingAPairByReplacementOrByOrAgree : Obligations.SettingAPairByReplacementOrByOrAgree := by
  intro cfg w k hk hw
  refine writePair_eq_or hk ?_
  obtain hzero | hset := hw k hk
  · rw [hzero, BitVec.zero_or]
  · rw [hset, BitVec.or_self]

/-! ### What a list leaves in a pair (R93, R94) -/

theorem pairAfter_eq_getD (cfg : Config) (list : List PowerEntry) (n : Nat) (old : BitVec 2) :
    pairAfter cfg list n old = ((lastUp list n).map (pairValue cfg)).getD old := by
  unfold pairAfter
  cases lastUp list n with
  | none => rfl
  | some up => cases up <;> rfl

/-- A later entry for the channel hides the first one (R93). -/
theorem lastUp_cons (e : PowerEntry) (es : List PowerEntry) (n : Nat) :
    lastUp (e :: es) n = (lastUp es n).or (if e.ch.toNat = n then some e.up else none) := by
  simp only [lastUp]
  cases lastUp es n <;> rfl

/-- The list seen from its front, as the algorithm applies it. -/
theorem pairAfter_cons (cfg : Config) (e : PowerEntry) (es : List PowerEntry) (n : Nat) (old : BitVec 2) :
    pairAfter cfg (e :: es) n old =
      pairAfter cfg es n (if e.ch.toNat = n then pairValue cfg e.up else old) := by
  simp only [pairAfter_eq_getD, lastUp_cons]
  cases lastUp es n with
  | some up => rfl
  | none => by_cases h : e.ch.toNat = n <;> simp [h]

/-- A list applied again leaves each pair as it is (R96). -/
theorem pairAfter_pairAfter (cfg : Config) (list : List PowerEntry) (n : Nat) (old : BitVec 2) :
    pairAfter cfg list n (pairAfter cfg list n old) = pairAfter cfg list n old := by
  simp only [pairAfter_eq_getD]
  cases lastUp list n <;> rfl

/-- Writing one entry into its channel's pair, seen from any pair of that bank's word. -/
theorem readPair_writePair (w : Word) {j k : Nat} (v : BitVec 2) (hk : k < 8) :
    readPair (writePair w (2 * k) v) (2 * j) = if k = j then v else readPair w (2 * j) := by
  split
  · next h => rw [← h, readPair_writePair_same w k v hk]
  · next h => rw [readPair_writePair_other w j k v hk (Ne.symm h)]

/-- One entry in range decides its channel's pair in either bank, and no other (R94). -/
theorem readPair_applyEntry {e : PowerEntry} (he : e.ch.toNat < 16) (cfg : Config) (k : Working) {j : Nat}
    (hj : j < 8) :
    readPair (applyEntry cfg k e).w.w0 (2 * j) =
        (if e.ch.toNat = j then pairValue cfg e.up else readPair k.w.w0 (2 * j)) ∧
      readPair (applyEntry cfg k e).w.w1 (2 * j) =
        (if e.ch.toNat = 8 + j then pairValue cfg e.up else readPair k.w.w1 (2 * j)) := by
  by_cases h8 : e.ch.toNat < 8
  · have hother : e.ch.toNat ≠ 8 + j := by omega
    simp [applyEntry_bank0 cfg k e h8, readPair_writePair _ _ h8, hother]
  · have h8' : 8 ≤ e.ch.toNat := by omega
    have hother : e.ch.toNat ≠ j := by omega
    have hsame : e.ch.toNat - 8 = j ↔ e.ch.toNat = 8 + j := by omega
    have hk : e.ch.toNat - 8 < 8 := by omega
    simp [applyEntry_bank1 cfg k e h8' he, readPair_writePair _ _ hk, hother, hsame]

theorem readPair_foldl_applyEntry {list : List PowerEntry} (hv : ∀ e ∈ list, e.ch.toNat < 16) (cfg : Config)
    (k : Working) {j : Nat} (hj : j < 8) :
    readPair (list.foldl (applyEntry cfg) k).w.w0 (2 * j) = pairAfter cfg list j (readPair k.w.w0 (2 * j)) ∧
      readPair (list.foldl (applyEntry cfg) k).w.w1 (2 * j) =
        pairAfter cfg list (8 + j) (readPair k.w.w1 (2 * j)) := by
  induction list generalizing k with
  | nil => exact ⟨rfl, rfl⟩
  | cons e es ih =>
    obtain ⟨he, hes⟩ := List.forall_mem_cons.mp hv
    obtain ⟨he0, he1⟩ := readPair_applyEntry he cfg k hj
    obtain ⟨ih0, ih1⟩ := ih hes (applyEntry cfg k e)
    rw [List.foldl_cons, ih0, ih1, he0, he1, pairAfter_cons, pairAfter_cons]
    exact ⟨rfl, rfl⟩

/-- The working words after a list in range, pair by pair. -/
theorem readPair_applyEntries {list : List PowerEntry} (hv : ∀ e ∈ list, e.ch.toNat < 16) (cfg : Config) (sh : Shadow)
    {j : Nat} (hj : j < 8) :
    readPair (applyEntries cfg sh list).w.w0 (2 * j) = pairAfter cfg list j (readPair sh.w0 (2 * j)) ∧
      readPair (applyEntries cfg sh list).w.w1 (2 * j) = pairAfter cfg list (8 + j) (readPair sh.w1 (2 * j)) :=
  readPair_foldl_applyEntry hv cfg _ hj

/-! ### The power algorithm, by its two branches (R91, R95) -/

theorem powerRequest_of_bad {list : List PowerEntry} (h : ∃ e ∈ list, 16 ≤ e.ch.toNat) (s : State) :
    powerRequest list s = .next { s with results := s.results ++ [.errRange] } := by
  rw [powerRequest_spec, if_pos ((anyInvalid_iff list).mpr h)]

theorem emitAll_powerFrames (s : State) (k : Working) :
    emitAll s (powerFrames k) =
      { s with selQ := if powerFrames k = [] then s.selQ else true, events := s.events ++ powerFrames k } := by
  obtain ⟨fs, hfs⟩ := powerFrames_eq k
  simp [hfs, emitAll_frames]

theorem powerRequest_of_valid {list : List PowerEntry} (hv : ∀ e ∈ list, e.ch.toNat < 16) (s : State) :
    powerRequest list s =
      .next { s with
        sh := (applyEntries s.cfg s.sh list).w
        selQ := if powerFrames (applyEntries s.cfg s.sh list) = [] then s.selQ else true
        events := s.events ++ powerFrames (applyEntries s.cfg s.sh list)
        results := s.results ++ [.ok] } := by
  have hvalid : ¬ anyInvalid list = true := by simpa [anyInvalid_iff] using hv
  rw [powerRequest_spec, if_neg hvalid, emitAll_powerFrames]
  rfl

theorem exec_pwr (ch : Channel) (up : Bool) (s : State) :
    exec (.pwr ch up) s = powerRequest [{ ch := ch, up := up }] s := rfl

theorem exec_pwrb (list : List PowerEntry) (s : State) : exec (.pwrb list) s = powerRequest list s := rfl

/-! ### PWRB (R92, R93, R95) -/

/-- The frames of a list in range are those of the banks it names. -/
theorem powerFrames_applyEntries {list : List PowerEntry} (hv : ∀ e ∈ list, e.ch.toNat < 16) (cfg : Config)
    (sh : Shadow) :
    powerFrames (applyEntries cfg sh list) =
      (if ∃ e ∈ list, e.ch.toNat < 8 then [powerFrame (applyEntries cfg sh list).w .bank0] else []) ++
        (if ∃ e ∈ list, 8 ≤ e.ch.toNat then [powerFrame (applyEntries cfg sh list).w .bank1] else []) := by
  obtain ⟨h0, h1⟩ := applyEntries_touches hv cfg sh
  exact congrArg₂ (· ++ ·) (if_congr h0 rfl rfl) (if_congr h1 rfl rfl)

/-- Every entry in range touches a bank, so that only the empty list sends nothing. -/
theorem powerFrames_applyEntries_eq_nil_iff {list : List PowerEntry} (hv : ∀ e ∈ list, e.ch.toNat < 16) (cfg : Config)
    (sh : Shadow) : powerFrames (applyEntries cfg sh list) = [] ↔ list = [] := by
  rw [powerFrames_applyEntries hv]
  cases list with
  | nil => simp
  | cons e es =>
    by_cases h8 : e.ch.toNat < 8
    · simp [h8]
    · simp [show 8 ≤ e.ch.toNat by omega]

/-- Settles O15: the two branches of the algorithm; the committed words are read off `readPair_applyEntries`, the frames off
`powerFrames_applyEntries`. -/
theorem pwrbAppliesItsListAndSendsTheTouchedBanks : Obligations.PwrbAppliesItsListAndSendsTheTouchedBanks := by
  intro list s
  refine ⟨rfl, fun hv => ⟨(applyEntries s.cfg s.sh list).w, fun j hj => ?bank0, fun j hj => ?bank1, ?outcome⟩, ?bad⟩
  case bank0 => exact (readPair_applyEntries hv s.cfg s.sh hj).1
  case bank1 => exact (readPair_applyEntries hv s.cfg s.sh hj).2
  case outcome =>
    have hsel : (if powerFrames (applyEntries s.cfg s.sh list) = [] then s.selQ else true) =
        if list = [] then s.selQ else true :=
      if_congr (powerFrames_applyEntries_eq_nil_iff hv s.cfg s.sh) rfl rfl
    rw [exec_pwrb, powerRequest_of_valid hv, hsel, powerFrames_applyEntries hv]
    rfl
  case bad => exact fun hbad => powerRequest_of_bad hbad s

/-! ### PWR (R98) -/

theorem exec_pwr_bank0 {ch : Channel} (h : ch.toNat < 8) (up : Bool) (s : State) :
    exec (.pwr ch up) s =
      .next { s with
        sh := { s.sh with w0 := writePair s.sh.w0 (2 * ch.toNat) (pairValue s.cfg up) }
        selQ := true
        events := s.events ++
          [.frame (pack 0b0100#4 0b0000#4 (writePair s.sh.w0 (2 * ch.toNat) (pairValue s.cfg up)))]
        results := s.results ++ [.ok] } := by
  have happly : applyEntries s.cfg s.sh [{ ch := ch, up := up }] =
      { w := { s.sh with w0 := writePair s.sh.w0 (2 * ch.toNat) (pairValue s.cfg up) },
        t0 := true, t1 := false } :=
    applyEntry_bank0 s.cfg _ _ h
  rw [exec_pwr, powerRequest_of_valid (by simp; omega), happly]
  rfl

theorem exec_pwr_bank1 {ch : Channel} (h : 8 ≤ ch.toNat) (h' : ch.toNat < 16) (up : Bool) (s : State) :
    exec (.pwr ch up) s =
      .next { s with
        sh := { s.sh with w1 := writePair s.sh.w1 (2 * (ch.toNat - 8)) (pairValue s.cfg up) }
        selQ := true
        events := s.events ++
          [.frame (pack 0b0100#4 0b1000#4 (writePair s.sh.w1 (2 * (ch.toNat - 8)) (pairValue s.cfg up)))]
        results := s.results ++ [.ok] } := by
  have happly : applyEntries s.cfg s.sh [{ ch := ch, up := up }] =
      { w := { s.sh with w1 := writePair s.sh.w1 (2 * (ch.toNat - 8)) (pairValue s.cfg up) },
        t0 := false, t1 := true } :=
    applyEntry_bank1 s.cfg _ _ h h'
  rw [exec_pwr, powerRequest_of_valid (by simpa using h'), happly]
  rfl

/-- Settles O14: the word sent is the bank's word with the channel's pair written, so that the rules of `writePair` say what
it holds. -/
theorem pwrSetsOnePairAndSendsItsBank : Obligations.PwrSetsOnePairAndSendsItsBank := by
  intro ch up s
  refine ⟨rfl, fun h => ⟨_, ?pair0, fun k _ hk => ?others0, exec_pwr_bank0 h up s⟩,
    fun h h' => ⟨_, ?pair1, fun k _ hk => ?others1, exec_pwr_bank1 h h' up s⟩, fun hbad => ?bad, rfl⟩
  case pair0 => exact readPair_writePair_same _ _ _ h
  case others0 => exact readPair_writePair_other _ _ _ _ h hk
  case pair1 => exact readPair_writePair_same _ _ _ (by omega)
  case others1 => exact readPair_writePair_other _ _ _ _ (by omega) hk
  case bad => exact powerRequest_of_bad ⟨_, List.mem_singleton_self _, hbad⟩ s

/-! ### Repetition (R96) -/

theorem working_ext {k k' : Working} (hw : k.w = k'.w) (h0 : k.t0 = k'.t0) (h1 : k.t1 = k'.t1) : k = k' := by
  cases k
  cases k'
  simp_all

/-- Applied to the words it has left, a list leaves the same words and touches the same banks. -/
theorem applyEntries_applyEntries {list : List PowerEntry} (hv : ∀ e ∈ list, e.ch.toNat < 16) (cfg : Config)
    (sh : Shadow) : applyEntries cfg (applyEntries cfg sh list).w list = applyEntries cfg sh list := by
  have pairs (sh : Shadow) {j : Nat} (hj : j < 8) := readPair_applyEntries hv cfg sh hj
  have touches := applyEntries_touches hv cfg
  have hw0 : (applyEntries cfg (applyEntries cfg sh list).w list).w.w0 = (applyEntries cfg sh list).w.w0 :=
    word_ext_pairs fun j hj => by rw [(pairs _ hj).1, (pairs _ hj).1, pairAfter_pairAfter]
  have hw1 : (applyEntries cfg (applyEntries cfg sh list).w list).w.w1 = (applyEntries cfg sh list).w.w1 :=
    word_ext_pairs fun j hj => by rw [(pairs _ hj).2, (pairs _ hj).2, pairAfter_pairAfter]
  refine working_ext (congrArg₂ Shadow.mk hw0 hw1) ?_ ?_
  · rw [Bool.eq_iff_iff, (touches _).1, (touches sh).1]
  · rw [Bool.eq_iff_iff, (touches _).2, (touches sh).2]

/-- Settles O16: an abort is repeated as it is, and a success starts again from the words that the list has left. -/
theorem repeatedPowerRequestSendsTheSameFrames : Obligations.RepeatedPowerRequestSendsTheSameFrames := by
  intro i s t u hi hst htu
  obtain ⟨list, hlist⟩ := exec_of_isPower hi
  rw [hlist] at hst htu
  by_cases hbad : ∃ e ∈ list, 16 ≤ e.ch.toNat
  · rw [powerRequest_of_bad hbad] at hst htu
    obtain rfl := Host.Outcome.next.inj hst
    obtain rfl := Host.Outcome.next.inj htu
    exact ⟨rfl, [], by simp, by simp⟩
  · have hv : ∀ e ∈ list, e.ch.toNat < 16 := by simpa using hbad
    rw [powerRequest_of_valid hv] at hst htu
    obtain rfl := Host.Outcome.next.inj hst
    obtain rfl := Host.Outcome.next.inj htu
    have hagain := applyEntries_applyEntries hv s.cfg s.sh
    exact ⟨congrArg Working.w hagain, _, rfl, by simp only [hagain]⟩

end Sys2Proof.Machine

/-! PROOF. The statement of spec/43_reference.md: the frame of a reference setup. -/

namespace Sys2Proof.Machine

/-- Only bit 0 of the payload depends on `ext` (R100). -/
theorem refPayload_eq_ite (ext : Bool) : refPayload ext = if ext then 0x0001#16 else 0x0000#16 := by
  cases ext with
  | false => rfl
  | true => rfl

theorem exec_setref (ext : Bool) (s : State) :
    exec (.setref ext) s = complete .ok (emitFrame 0b0111#4 refAddr (refPayload ext) s) := rfl

/-- Settles O19: SETREF has no operand check, so that both values of `ext` emit one frame at REF_ADDR and complete; the
payload is `refPayload_eq_ite`'s. -/
theorem setrefSendsTheReferencePayload : Obligations.SetrefSendsTheReferencePayload := by
  intro ext s
  refine ⟨rfl, ?outcome⟩
  case outcome =>
    rw [exec_setref, refPayload_eq_ite, emitFrame_eq]
    rfl

end Sys2Proof.Machine

/-! PROOF. The statements of spec/60_exceptions.md: how a request ends, with which result code, and what a stalled transport
leaves unfinished. -/

namespace Sys2Proof.Machine

/-! ### No trap, and what an abort leaves (R105, R113) -/

/-- Settles O26: every `Effect` is a next state. -/
theorem everyInstructionCompletes : Obligations.EveryInstructionCompletes := by
  intro i s
  obtain ⟨sh, es, rs, ho, -⟩ := exec_spec i s
  exact ⟨_, ho⟩

/-- Settles O28: a frame row gives no result code, so that one with an error code is a request, and `Effect` lets its abort
neither write SH nor emit. -/
theorem abortedRequestsLeaveNoTrace : Obligations.AbortedRequestsLeaveNoTrace := by
  intro i s t r h hr ha
  obtain ⟨sh, es, rs, ho, -, -, hrequest, hrow⟩ := effect_of_exec h
  obtain rfl := Host.Outcome.next.inj ho
  obtain rfl : rs = [r] := by simpa using hr
  cases hi : isRequest i with
  | true =>
    obtain ⟨r', hr', habort⟩ := hrequest hi
    obtain rfl : r = r' := by simpa using hr'
    obtain ⟨rfl, rfl⟩ := habort ha
    rfl
  | false => simpa using hrow hi

/-! ### The result code of each instruction (R109 to R112) -/

/-- R111's condition. -/
abbrev HasBadChannel (i : Instr) : Prop :=
  ∃ c ∈ channelOperands i, 16 ≤ c.toNat

theorem hasBadChannel_setch (ch : Channel) (code : Word) (imm verbose : Bool) :
    HasBadChannel (.setch ch code imm verbose) ↔ 16 ≤ ch.toNat := by
  simp [HasBadChannel, channelOperands]

theorem hasBadChannel_pwr (ch : Channel) (up : Bool) :
    HasBadChannel (.pwr ch up) ↔ ∃ e ∈ [PowerEntry.mk ch up], 16 ≤ e.ch.toNat := by
  simp [HasBadChannel, channelOperands]

theorem hasBadChannel_pwrb (list : List PowerEntry) : HasBadChannel (.pwrb list) ↔ ∃ e ∈ list, 16 ≤ e.ch.toNat := by
  simp [HasBadChannel, channelOperands]

/-- The result code of an instruction whose channel operands are all in range; none for a frame row. -/
def resultInRange (res : Resolution) : Instr → Option Result
  | .setch _ code _ verbose => some (setchResult res code verbose)
  | .illegalOp _ => some .errOpcode
  | i => if isRequest i = true then some .ok else none

theorem resultInRange_eq_some {res : Resolution} {i : Instr} {r : Result} (h : resultInRange res i = some r) :
    r = .ok ∨ r = .errOpcode ∨
      ∃ ch code imm verbose, i = .setch ch code imm verbose ∧ r = setchResult res code verbose := by
  unfold resultInRange at h
  split at h
  · next ch code imm verbose => exact .inr (.inr ⟨ch, code, imm, verbose, rfl, (Option.some.inj h).symm⟩)
  · exact .inr (.inl (Option.some.inj h).symm)
  · split at h
    · exact .inl (Option.some.inj h).symm
    · cases h

/-- The result code an instruction gives back (`exec_results`); none for a frame row. -/
def resultOf (res : Resolution) (i : Instr) : Option Result :=
  if HasBadChannel i then some .errRange else resultInRange res i

/-- An abort, by the channel check of each of the four requests with channel operands. -/
theorem exec_of_hasBadChannel {i : Instr} (h : HasBadChannel i) (s : State) : exec i s = abort .errRange s := by
  cases i with
  | setch ch code imm verbose => exact exec_setch_of_ge code imm verbose s ((hasBadChannel_setch ..).mp h)
  | updch list => rw [exec_updch, if_pos ((maskLoop_e list).mpr h)]
  | pwr ch up => exact powerRequest_of_bad ((hasBadChannel_pwr ch up).mp h) s
  | pwrb list => exact powerRequest_of_bad ((hasBadChannel_pwrb list).mp h) s
  | _ => simp [HasBadChannel, channelOperands] at h

theorem results_of_complete {r : Result} {s u t : State} (h : complete r u = .next t) (hu : u.results = s.results) :
    t.results = s.results ++ [r] := by
  obtain rfl := Host.Outcome.next.inj h
  rw [giveResult_results, hu]

theorem powerRequest_results_of_inRange {list : List PowerEntry} {s t : State} (hc : ¬ ∃ e ∈ list, 16 ≤ e.ch.toNat)
    (h : powerRequest list s = .next t) : t.results = s.results ++ [.ok] := by
  rw [powerRequest_of_valid (by simpa using hc)] at h
  obtain rfl := Host.Outcome.next.inj h
  rfl

theorem exec_results_of_inRange {i : Instr} {s t : State} (hc : ¬ HasBadChannel i) (h : exec i s = .next t) :
    t.results = s.results ++ (resultInRange s.cfg.resolution i).toList := by
  cases i with
  | setch ch code imm verbose =>
    rw [hasBadChannel_setch, Nat.not_le] at hc
    rw [exec_setch_of_lt code imm verbose s hc] at h
    exact results_of_complete h rfl
  | updch list =>
    rw [exec_updch, if_neg (mt (maskLoop_e list).mp hc)] at h
    exact results_of_complete h rfl
  | pwr ch up => exact powerRequest_results_of_inRange (mt (hasBadChannel_pwr ch up).mpr hc) h
  | pwrb list => exact powerRequest_results_of_inRange (mt (hasBadChannel_pwrb list).mpr hc) h
  | ldac delay => exact results_of_complete h (emitAll_results s (ldacEvents delay))
  | illegalOp op => exact results_of_complete h rfl
  | wraw cmd addr data => exact results_of_complete h rfl
  | setref ext => exact results_of_complete h rfl
  | _ =>
    obtain ⟨-, hrow⟩ := everyRequestGivesOneResult _ s t h
    exact (hrow rfl).trans (List.append_nil _).symm

theorem exec_results {i : Instr} {s t : State} (h : exec i s = .next t) :
    t.results = s.results ++ (resultOf s.cfg.resolution i).toList := by
  unfold resultOf
  split
  · next hc =>
    rw [exec_of_hasBadChannel hc] at h
    exact results_of_complete h rfl
  · next hc => exact exec_results_of_inRange hc h

theorem exec_results_eq_append_iff {i : Instr} {s t : State} (h : exec i s = .next t) (r : Result) :
    t.results = s.results ++ [r] ↔ resultOf s.cfg.resolution i = some r := by
  rw [exec_results h, List.append_cancel_left_eq]
  cases resultOf s.cfg.resolution i <;> simp

/-! ### ERR_RANGE (R111) -/

/-- With the channels in range, an illegal op is the one abort. -/
theorem eq_errOpcode_of_resultInRange {res : Resolution} {i : Instr} {r : Result} (h : resultInRange res i = some r)
    (ha : isAbort r = true) : r = .errOpcode := by
  obtain rfl | rfl | ⟨ch, code, imm, verbose, -, rfl⟩ := resultInRange_eq_some h
  · cases ha
  · rfl
  · simp [isAbort_setchResult] at ha

theorem resultOf_eq_errRange_iff (res : Resolution) (i : Instr) :
    resultOf res i = some .errRange ↔ HasBadChannel i := by
  unfold resultOf
  split
  · next hc => exact iff_of_true rfl hc
  · next hc => exact iff_of_false (fun h => nomatch eq_errOpcode_of_resultInRange h rfl) hc

/-- Settles O29: the channel check is the only source of ERR_RANGE. -/
theorem rangeErrorExactlyForABadChannel : Obligations.RangeErrorExactlyForABadChannel := by
  intro i s t h
  rw [exec_results_eq_append_iff h, resultOf_eq_errRange_iff]

/-! ### The truncation warning (R80, R112) -/

theorem setchResult_eq_okWarnTrunc_iff (res : Resolution) (code : Word) (verbose : Bool) :
    setchResult res code verbose = .okWarnTrunc ↔ res = .res12 ∧ 0x0FFF < code.toNat ∧ verbose = true := by
  rw [setchResult_eq_ite]
  simp

theorem resultOf_eq_okWarnTrunc_iff (res : Resolution) (i : Instr) :
    resultOf res i = some .okWarnTrunc ↔
      ∃ (ch : Channel) (code : Word) (imm : Bool), i = .setch ch code imm true ∧ ch.toNat < 16 ∧
        res = .res12 ∧ 0x0FFF < code.toNat := by
  unfold resultOf
  constructor
  · intro h
    split at h
    · cases h
    · next hc =>
      obtain h | h | ⟨ch, code, imm, verbose, rfl, hwarn⟩ := resultInRange_eq_some h
      · cases h
      · cases h
      · obtain ⟨hres, hcode, rfl⟩ := (setchResult_eq_okWarnTrunc_iff res code verbose).mp hwarn.symm
        rw [hasBadChannel_setch, Nat.not_le] at hc
        exact ⟨ch, code, imm, rfl, hc, hres, hcode⟩
  · rintro ⟨ch, code, imm, rfl, hch, hres, hcode⟩
    have hc : ¬ HasBadChannel (.setch ch code imm true) := by rwa [hasBadChannel_setch, Nat.not_le]
    rw [if_neg hc]
    exact congrArg some ((setchResult_eq_okWarnTrunc_iff res code true).mpr ⟨hres, hcode, rfl⟩)

/-- Settles O30: the warning names its SETCH (`resultOf_eq_okWarnTrunc_iff`), and a SETCH of a valid channel sends one
frame. -/
theorem truncationWarningOnlyFromSetch : Obligations.TruncationWarningOnlyFromSetch := by
  intro i s t h
  rw [exec_results_eq_append_iff h, resultOf_eq_okWarnTrunc_iff]
  refine ⟨Iff.rfl, ?frame⟩
  case frame =>
    rintro ⟨ch, code, imm, rfl, hch, -, -⟩
    rw [exec_setch_of_lt code imm true s hch] at h
    obtain rfl := Host.Outcome.next.inj h
    exact ⟨rfl, _, rfl⟩

/-! ### ERR_REF_UNDEF and the numbers of the codes (R107, R109) -/

theorem resultOf_ne_errRefUndef (res : Resolution) (i : Instr) : resultOf res i ≠ some .errRefUndef := by
  intro h
  unfold resultOf at h
  split at h
  · cases h
  · exact nomatch eq_errOpcode_of_resultInRange h rfl

theorem exec_errRefUndef {i : Instr} {s t : State} (h : exec i s = .next t) (hr : Result.errRefUndef ∈ t.results) :
    Result.errRefUndef ∈ s.results := by
  rw [exec_results h, List.mem_append, Option.mem_toList] at hr
  exact hr.resolve_right (resultOf_ne_errRefUndef s.cfg.resolution i)

/-- Settles O31: of the four things that `step_cases` lets a step do, only an instruction gives a result code, and none
gives this one. -/
theorem blockNeverReportsAnUndefinedReference : Obligations.BlockNeverReportsAnUndefinedReference := by
  refine ⟨fun s t h hr => ?step, fun r => ?numbers⟩
  case step =>
    obtain ⟨-, rfl⟩ | ⟨rest, -, -, rfl⟩ | ⟨rest, -, rfl⟩ | ⟨p, rest, i, -, -, he, -⟩ := step_cases h
    · exact hr
    · simpa using hr
    · exact hr
    · exact exec_errRefUndef (s := { s with port := rest }) he hr
  case numbers => cases r <;> decide

/-- Settles O32: the five rows of `resultCode`. -/
theorem resultCodesAreNumberedAsListed : Obligations.ResultCodesAreNumberedAsListed :=
  ⟨rfl, rfl, rfl, rfl, rfl⟩

/-! ### The stalled transport (R124, R141) -/

theorem exec_stalled {i : Instr} {s t : State} (h : exec i s = .next t) : t.stalled = s.stalled := by
  obtain ⟨sh, es, rs, ho, -⟩ := effect_of_exec h
  obtain rfl := Host.Outcome.next.inj ho
  obtain ⟨sel, lat, rst, he⟩ := emitAll_spec { s with sh := sh } es
  rw [he]

/-- The transport compares lengths, which tells every new event: an instruction only appends. -/
theorem exec_events_length_lt_iff {i : Instr} {s t : State} (h : exec i s = .next t) :
    s.events.length < t.events.length ↔ t.events ≠ s.events := by
  obtain ⟨rs, es, -, hes, -⟩ := exec_appends h
  simp [hes, List.length_pos_iff]

theorem step_of_stall {s : State} {rest : List Presented} (hp : s.port = .stall :: rest) :
    step s = .next (stallTransport { s with port := rest }) := by
  simp only [step, hp]

theorem step_of_reset {s : State} {rest : List Presented} (hp : s.port = .reset :: rest) :
    step s = withTransport s (.next (performReset { s with port := rest })) := by
  simp only [step, hp]

/-- The event of an unfinished request or reset is never completed. -/
theorem withTransport_stalled {s t : State} (hs : s.stalled = true) (hlt : s.events.length < t.events.length) :
    withTransport s (.next t) = .fault .transportStalled := by
  rw [withTransport_next, if_pos ⟨hs, hlt⟩]

/-- Settles O9: `withTransport` stops an instruction with an event and every reset, and a step that does end is one of
`step_cases`, none of which clears the stall. -/
theorem stalledTransportLeavesTheRequestUnfinished : Obligations.StalledTransportLeavesTheRequestUnfinished := by
  refine ⟨fun s rest hp => ?stall, fun s t p rest i hs hp hd he hne => ?request, fun s rest hs hp => ?reset,
    fun s t hs h => ?ends⟩
  case stall => exact step_of_stall hp
  case request =>
    rw [step_of_decode hp hd, he]
    exact withTransport_stalled hs ((exec_events_length_lt_iff he).mpr hne)
  case reset =>
    rw [step_of_reset hp]
    exact withTransport_stalled hs (by simp [resetEvents])
  case ends =>
    obtain ⟨-, rfl⟩ | ⟨rest, -, hrunning, -⟩ | ⟨rest, -, rfl⟩ | ⟨p, rest, i, -, -, he, hlt⟩ := step_cases h
    · exact ⟨hs, rfl⟩
    · simp [hs] at hrunning
    · exact ⟨rfl, rfl⟩
    · exact ⟨(exec_stalled he).trans hs, not_not.mp (mt (exec_events_length_lt_iff he).mpr (hlt hs))⟩

end Sys2Proof.Machine

/-! PROOF. The statements of spec/70_reset_and_hazards.md: the reset pulses a step gives out, and the power
re-synchronisation after a restart. -/

namespace Sys2Proof.Machine

/-! ### The reset pulses of a step (R131) -/

theorem resetPulses_append (es es' : List Event) : resetPulses (es ++ es') = resetPulses es + resetPulses es' :=
  List.countP_append

theorem resetPulses_eq_zero_iff (es : List Event) : resetPulses es = 0 ↔ Event.line .rst false ∉ es := by
  simp [resetPulses, List.countP_eq_zero, List.forall_mem_ne']

/-- The reset sequence drives the line high before and after its pulse, which counts once. -/
theorem resetPulses_resetEvents (cfg : Config) : resetPulses (resetEvents cfg) = 1 := rfl

theorem exec_resetPulses {i : Instr} {s t : State} (h : exec i s = .next t) :
    resetPulses t.events = resetPulses s.events := by
  obtain ⟨es, hes, -, hrst, -⟩ := onlyLdacDrivesTheLatchAndNoneTheResetLine i s t h
  rw [hes, resetPulses_append, (resetPulses_eq_zero_iff es).mpr (hrst false), Nat.add_zero]

theorem ne_reset_of_decode {p : Presented} {i : Instr} (h : decode p = .ok i) : p ≠ .reset := by
  rintro rfl
  cases h

/-- Settles O41: of the four things that `step_cases` lets a step do, the reset gives out `resetEvents`, and no other drives
the reset line; what decodes is no reset. -/
theorem eachResetEmitsOneResetPulse : Obligations.EachResetEmitsOneResetPulse := by
  intro s t h
  obtain ⟨hp, rfl⟩ | ⟨rest, hp, -, rfl⟩ | ⟨rest, hp, rfl⟩ | ⟨p, rest, i, hp, hd, he, -⟩ := step_cases h
  · simp [hp]
  · simp [hp, resetPulses_append, resetPulses_resetEvents]
  · simp [hp]
  · simp [hp, ne_reset_of_decode hd, exec_resetPulses he]

/-! ### A list that names a channel decides its pair (R93) -/

/-- What `lastUp` answers stands in an entry for the channel. -/
theorem exists_mem_of_lastUp {list : List PowerEntry} {n : Nat} {up : Bool} (h : lastUp list n = some up) :
    ∃ e ∈ list, e.ch.toNat = n ∧ e.up = up := by
  induction list with
  | nil => cases h
  | cons e es ih =>
    rw [lastUp_cons, Option.or_eq_some_iff] at h
    obtain hlater | ⟨-, hfirst⟩ := h
    · obtain ⟨e', he', hup⟩ := ih hlater
      exact ⟨e', List.mem_cons_of_mem e he', hup⟩
    · exact ⟨e, List.mem_cons_self, by simpa using hfirst⟩

theorem exists_lastUp_of_mem {list : List PowerEntry} {e : PowerEntry} (he : e ∈ list) :
    ∃ up, lastUp list e.ch.toNat = some up := by
  induction list with
  | nil => cases he
  | cons e' es ih =>
    rw [lastUp_cons]
    obtain rfl | hes := List.mem_cons.mp he
    · cases lastUp es e.ch.toNat <;> simp
    · obtain ⟨up, hup⟩ := ih hes
      exact ⟨up, by rw [hup, Option.some_or]⟩

/-- The pair of a named channel does not depend on the old one. -/
theorem pairAfter_of_lastUp {list : List PowerEntry} {n : Nat} {up : Bool} (h : lastUp list n = some up) (cfg : Config)
    (old : BitVec 2) : pairAfter cfg list n old = pairValue cfg up := by
  rw [pairAfter_eq_getD, h]
  rfl

/-! ### A power request naming all 16 channels (R135) -/

/-- Every channel has an entry. -/
def NamesAllChannels (list : List PowerEntry) : Prop :=
  ∀ c < 16, ∃ e ∈ list, e.ch.toNat = c

section FullList
variable {list : List PowerEntry}

theorem NamesAllChannels.exists_lastUp (hall : NamesAllChannels list) {c : Nat} (hc : c < 16) :
    ∃ up, lastUp list c = some up := by
  obtain ⟨e, he, rfl⟩ := hall c hc
  exact exists_lastUp_of_mem he

/-- The committed words do not depend on the shadow: each of the 16 pairs is the list's. -/
theorem applyEntries_w_of_namesAllChannels (hv : ∀ e ∈ list, e.ch.toNat < 16) (hall : NamesAllChannels list)
    (cfg : Config) (sh sh' : Shadow) : (applyEntries cfg sh list).w = (applyEntries cfg sh' list).w := by
  have pairs (sh : Shadow) {j : Nat} (hj : j < 8) := readPair_applyEntries hv cfg sh hj
  refine congrArg₂ Shadow.mk (word_ext_pairs fun j hj => ?_) (word_ext_pairs fun j hj => ?_)
  · obtain ⟨up, hup⟩ := hall.exists_lastUp (c := j) (by omega)
    rw [(pairs sh hj).1, (pairs sh' hj).1, pairAfter_of_lastUp hup, pairAfter_of_lastUp hup]
  · obtain ⟨up, hup⟩ := hall.exists_lastUp (c := 8 + j) (by omega)
    rw [(pairs sh hj).2, (pairs sh' hj).2, pairAfter_of_lastUp hup, pairAfter_of_lastUp hup]

/-- Channels 0 and 8 are named, one of each bank. -/
theorem powerFrames_of_namesAllChannels (hv : ∀ e ∈ list, e.ch.toNat < 16) (hall : NamesAllChannels list)
    (cfg : Config) (sh : Shadow) :
    powerFrames (applyEntries cfg sh list) =
      [powerFrame (applyEntries cfg sh list).w .bank0, powerFrame (applyEntries cfg sh list).w .bank1] := by
  obtain ⟨e, he, hch⟩ := hall 0 (by decide)
  obtain ⟨e', he', hch'⟩ := hall 8 (by decide)
  rw [powerFrames_applyEntries hv, if_pos ⟨e, he, by omega⟩, if_pos ⟨e', he', by omega⟩]
  rfl

end FullList

/-! ### The re-synchronisation (R61) -/

theorem toNat_ofNat_channel {c : Nat} (hc : c < 16) : (BitVec.ofNat 8 c : Channel).toNat = c := by
  rw [BitVec.toNat_ofNat, Nat.mod_eq_of_lt (by omega)]

/-- Its entries are each channel with its intended state. -/
theorem mem_resyncEntries (ups : Vector Bool 16) (e : PowerEntry) :
    e ∈ resyncEntries ups ↔ ∃ h : e.ch.toNat < 16, e.up = ups[e.ch.toNat] := by
  constructor
  · intro he
    obtain ⟨c, hc, rfl⟩ := List.mem_map.mp he
    have hc' : c < 16 := List.mem_range.mp hc
    have hch := toNat_ofNat_channel hc'
    exact ⟨hch.trans_lt hc', by simp [hch, hc', Vector.getD]⟩
  · rintro ⟨h, hup⟩
    exact List.mem_map.mpr ⟨e.ch.toNat, List.mem_range.mpr h, by simp [Vector.getD, h, ← hup]⟩

theorem namesAllChannels_resyncEntries (ups : Vector Bool 16) : NamesAllChannels (resyncEntries ups) := by
  intro c hc
  have hch := toNat_ofNat_channel hc
  exact ⟨⟨BitVec.ofNat 8 c, ups[c]⟩, (mem_resyncEntries ups _).mpr ⟨hch.trans_lt hc, by simp [hch]⟩, hch⟩

/-- One state for each channel, so that the last entry is the intended one. -/
theorem lastUp_resyncEntries (ups : Vector Bool 16) (c : Nat) (hc : c < 16) :
    lastUp (resyncEntries ups) c = some ups[c] := by
  obtain ⟨up, hup⟩ := (namesAllChannels_resyncEntries ups).exists_lastUp hc
  obtain ⟨e, he, rfl, rfl⟩ := exists_mem_of_lastUp hup
  obtain ⟨_, hintended⟩ := (mem_resyncEntries ups e).mp he
  rw [hup, hintended]

/-- Settles O18: the shadow is what the list leaves of the cleared one, and by `applyEntries_w_of_namesAllChannels` of any
other. -/
theorem fullPowerRequestRestoresTheShadow : Obligations.FullPowerRequestRestoresTheShadow := by
  refine ⟨fun cfg list hv hall => ⟨(applyEntries cfg { w0 := 0x0000#16, w1 := 0x0000#16 } list).w, fun k hk => ?bank0,
    fun k hk => ?bank1, ?outcome⟩, fun ups => ⟨fun e he => ?inRange, ?all, ?intended⟩⟩
  case bank0 =>
    obtain ⟨up, hup⟩ := NamesAllChannels.exists_lastUp hall (c := k) (by omega)
    exact ⟨up, hup, (readPair_applyEntries hv cfg _ hk).1.trans (pairAfter_of_lastUp hup cfg _)⟩
  case bank1 =>
    obtain ⟨up, hup⟩ := NamesAllChannels.exists_lastUp hall (c := 8 + k) (by omega)
    exact ⟨up, hup, (readPair_applyEntries hv cfg _ hk).2.trans (pairAfter_of_lastUp hup cfg _)⟩
  case outcome =>
    rintro s rfl
    rw [exec_pwrb, powerRequest_of_valid hv, powerFrames_of_namesAllChannels hv hall,
      applyEntries_w_of_namesAllChannels hv hall s.cfg s.sh { w0 := 0x0000#16, w1 := 0x0000#16 }]
    rfl
  case inRange => exact ((mem_resyncEntries ups e).mp he).1
  case all => exact namesAllChannels_resyncEntries ups
  case intended => exact lastUp_resyncEntries ups

end Sys2Proof.Machine
